-- ==== Sys2Proof/Config.lean ====
section
/-! DEFINITION. The implementation parameters of 00_scope.md R8 to R11, with the values the spec gives them. -/

namespace Sys2Proof.Config

/-- Width of the register field of a word (R8). -/
abbrev regFieldW : Nat := 5

/-- Width of the move-immediate field (R8). -/
abbrev immFieldW : Nat := 16

/-- Width of the low part of the address-load displacement (R8). -/
abbrev adrLoW : Nat := 2

/-- Width of the high part of the address-load displacement (R8). -/
abbrev adrHiW : Nat := 19

/-- Width of the address-load displacement, its two parts together (R8). -/
abbrev adrDispW : Nat := adrLoW + adrHiW

/-- Width of the branch offset field (R8). -/
abbrev brOffW : Nat := 26

/-- The branch displacement is divided by four, a shift by two (R8). -/
abbrev brShift : Nat := 2

/-- Bytes occupied by one instruction word, the unit of a branch offset (R8). -/
abbrev instrBytes : Nat := 4

/-- The two admitted values of `OVERSIZE_POLICY` (R11): what becomes of operands outside the contract of R205. The
third policy, pass-through, is rejected by the spec (90_conflicts.md C1) and is no value here. -/
inductive OversizePolicy where
  /-- Excess bits are never read: the default, and what every rule of the spec states. -/
  | truncate
  /-- A call with an operand outside the contract has no meaning. -/
  | refuse
deriving DecidableEq, Repr

/-- The policy the machine of this model runs under. DESIGN CHOICE (log entry 5), the spec's own default (R11, D4);
unsafe outside the contract only. -/
def oversizePolicy : OversizePolicy := .truncate

end Sys2Proof.Config
end

