-- ==== Sys2Proof/Word.lean ====
section
/-! DEFINITION. The two widths of value the block handles: 32-bit words and 64-bit addresses. -/

namespace Sys2Proof

/-- `WORD_W`, `BFW_W`, `DISP_W`, `REG_PORT_W` and `IMM_PORT_W` are all 32 (R8, R9, R10). Unsigned; bit 0 is the least
significant bit (00_scope.md section 4). -/
abbrev Word := BitVec 32

/-- `ADDR_W` is 64 (R10, 92_eei_decisions.md D3): the width of a target or instruction address. -/
abbrev Addr := BitVec 64

end Sys2Proof
end

