-- ==== Sys2Proof/Syntax.lean ====
section
/-! DEFINITION. The operations of the block and the calls of its packers, whole. -/

namespace Sys2Proof

/-- The five operations of the block, and nothing else (R2). Each is a unit with an output port of its own
(R22 to R26). -/
inductive Operation where
  | bfw
  | encMoveImmediate
  | encAddressLoad
  | encByteStore
  | encBranch
deriving DecidableEq, Repr

/-- The four instruction forms the block can emit (R60). -/
inductive Form where
  | moveImmediate
  | addressLoad
  | byteStore
  | branch
deriving DecidableEq, Repr

/-- One evaluation of a packer: the row of the opcode table whose word it returns, with a value on each input port of
its unit, in the source's order (R23 to R26, R73). One entry point with four constructors is what D8 allows a model;
the constructors' order has no meaning (log entry 18). Port widths: log entry 7. -/
inductive Instr where
  /-- `ENC_MOVE_IMMEDIATE(register, immediate)` (R23, R100). -/
  | moveImmediate (register immediate : Word)
  /-- `ENC_ADDRESS_LOAD(register, target_address, instruction_address)` (R24, R110). -/
  | addressLoad (register : Word) (targetAddress instructionAddress : Addr)
  /-- `ENC_BYTE_STORE(source_register, base_register)` (R25, R130). -/
  | byteStore (sourceRegister baseRegister : Word)
  /-- `ENC_BRANCH(target_address, instruction_address)` (R26, R140). -/
  | branch (targetAddress instructionAddress : Addr)
deriving DecidableEq, Repr

/-- The form of the word a call returns (R60). -/
def Instr.form : Instr → Form
  | .moveImmediate _ _ => .moveImmediate
  | .addressLoad _ _ _ => .addressLoad
  | .byteStore _ _ => .byteStore
  | .branch _ _ => .branch

/-- The operation a call evaluates (R2). -/
def Instr.operation : Instr → Operation
  | .moveImmediate _ _ => .encMoveImmediate
  | .addressLoad _ _ _ => .encAddressLoad
  | .byteStore _ _ => .encByteStore
  | .branch _ _ => .encBranch

/-- The form an operation emits; the writer emits no word of its own (R80). -/
def Operation.form? : Operation → Option Form
  | .bfw => none
  | .encMoveImmediate => some .moveImmediate
  | .encAddressLoad => some .addressLoad
  | .encByteStore => some .byteStore
  | .encBranch => some .branch

/-- The address a call says its word will stand at, where it says one (R24, R26). -/
def Instr.instructionAddress? : Instr → Option Addr
  | .addressLoad _ _ a => some a
  | .branch _ a => some a
  | .moveImmediate _ _ => none
  | .byteStore _ _ => none

end Sys2Proof
end

