-- ==== Sys2Proof/WellFormed.lean ====
section
/-! DEFINITION. The caller's contract of 70_reset_and_hazards.md R205: which operands are in contract. The block checks
none of this (R203); a call outside the contract still has its effect under the default policy. -/

namespace Sys2Proof

/-- A register index fits its field: `<= 31` (R102, R114, R133). -/
def registerFits (r : Word) : Bool := decide (r.toNat < 2 ^ Config.regFieldW)

/-- An immediate fits its field: `<= 0xFFFF` (R102). -/
def immediateFits (v : Word) : Bool := decide (v.toNat < 2 ^ Config.immFieldW)

/-- The distance `D = signed_64(target_address - instruction_address)` of R205, the subtraction wrapping at 64 bits.
DEDUCED (log entry 11): R114 and R144 say 'without wrap', R181 and the rows of R119 that cross 2^64 say otherwise. -/
def distance (targetAddress instructionAddress : Addr) : Int := (targetAddress - instructionAddress).toInt

/-- The address-load distance lies in `-2^20 <= D < 2^20` (R114, R205). -/
def addressLoadDistanceFits (t a : Addr) : Bool := decide (-1048576 ≤ distance t a ∧ distance t a < 1048576)

/-- The branch distance is a whole number of instruction words (R144, R205). -/
def branchDistanceAligned (t a : Addr) : Bool := decide (distance t a % 4 = 0)

/-- The branch distance lies in `-2^27 <= D < 2^27` (R144, R205). -/
def branchDistanceFits (t a : Addr) : Bool := decide (-134217728 ≤ distance t a ∧ distance t a < 134217728)

/-- In contract: every operand meets its row of the table of R205. -/
def Instr.wellFormed : Instr → Bool
  | .moveImmediate register immediate => registerFits register && immediateFits immediate
  | .addressLoad register target instruction => registerFits register && addressLoadDistanceFits target instruction
  | .byteStore source base => registerFits source && registerFits base
  | .branch target instruction => branchDistanceAligned target instruction && branchDistanceFits target instruction

end Sys2Proof
end

