-- ==== Sys2Proof/Decode.lean ====
section
/-! DEFINITION. The far side's reading of an emitted word (R68, R70) and, after it, the encoder written from the format
tables R62 to R65. The block itself never decodes (R72): this is the reader of the opcode table's words. -/

namespace Sys2Proof

/-- The `mask` of a form: its bits are those no field covers (R70). -/
def Form.mask : Form → Word
  | .moveImmediate => 0xFFE00000#32
  | .addressLoad => 0x9F000000#32
  | .byteStore => 0xFFFFFC00#32
  | .branch => 0xFC000000#32

/-- The `match` of a form: the fixed bits a word of the form has under the mask (R70). -/
def Form.fixedBits : Form → Word
  | .moveImmediate => 0x52800000#32
  | .addressLoad => 0x10000000#32
  | .byteStore => 0x39000000#32
  | .branch => 0x14000000#32

/-- A word is of a form exactly when `w & mask = match` (R70). -/
def Form.admits (f : Form) (w : Word) : Bool := w &&& f.mask == f.fixedBits

/-- The form of a word, if it is one the block can return. The four rows exclude one another (R71), so the order of the
tests has no effect. -/
def formOf (w : Word) : Option Form :=
  if Form.moveImmediate.admits w then some .moveImmediate
  else if Form.addressLoad.admits w then some .addressLoad
  else if Form.byteStore.admits w then some .byteStore
  else if Form.branch.admits w then some .branch
  else none

/-- Why the decoder refuses a word. -/
inductive DecodeRefusal where
  /-- The word matches no row of R70: no packer returns it (R72). Safe: no call is made up for it. -/
  | noForm (w : Word)
deriving DecidableEq, Repr

/-- The low register field `w[4:0]`, back on a 32-bit port (R68). -/
def lowRegister (w : Word) : Word := (w.extractLsb' 0 5).setWidth 32

/-- The field `w[9:5]` of a byte store, back on a 32-bit port (R68). -/
def baseRegisterField (w : Word) : Word := (w.extractLsb' 5 5).setWidth 32

/-- The field `w[20:5]` of a move-immediate, back on a 32-bit port (R68). -/
def immediateField (w : Word) : Word := (w.extractLsb' 5 16).setWidth 32

/-- The 21-bit displacement `w[23:5] ++ w[30:29]` of an address-load (R68). -/
def addressLoadDisplacement (w : Word) : BitVec 21 := w.extractLsb' 5 19 ++ w.extractLsb' 29 2

/-- The 28-bit byte displacement `w[25:0] ++ 0b00` of a branch (R68). -/
def branchDisplacement (w : Word) : BitVec 28 := w.extractLsb' 0 26 ++ 0b00#2

/-- The in-contract call that returns `w` for a word that stands at `instructionAddress`: the fields of R68, the two
displacements read as two's-complement numbers (R114, R144). Total; a word of no form is refused by name. -/
def decodeAt (instructionAddress : Addr) (w : Word) : Except DecodeRefusal Instr :=
  match formOf w with
  | some .moveImmediate => .ok (.moveImmediate (lowRegister w) (immediateField w))
  | some .addressLoad =>
    .ok (.addressLoad (lowRegister w) (instructionAddress + (addressLoadDisplacement w).signExtend 64)
      instructionAddress)
  | some .byteStore => .ok (.byteStore (lowRegister w) (baseRegisterField w))
  | some .branch => .ok (.branch (instructionAddress + (branchDisplacement w).signExtend 64) instructionAddress)
  | none => .error (.noForm w)

/-- The call a bare word names: the word is taken to stand at address 0, since it records a distance and no place
(R116, R147). DESIGN CHOICE (log entry 8), as in R167, which puts the instruction address at 0. -/
def decode (w : Word) : Except DecodeRefusal Instr := decodeAt 0 w

/-- The instruction read from an opcode-table word of `nbits` bits (bits above `nbits` are 0); a word has 32 bits
(R60), so a longer one names no instruction. The word is taken as a number: the block has no byte order (R42). -/
def decodeTableWord (nbits w : Nat) : Option Instr :=
  if nbits ≤ 32 then (decode (BitVec.ofNat 32 (w % 2 ^ nbits))).toOption else none

/-! The encoder. -/

/-- `disp = trunc_32(target_address - instruction_address)`, the subtraction modulo 2^64 (R111, R141), as the format
tables R63 and R65 use it. -/
def formatDisplacement (targetAddress instructionAddress : Addr) : Word :=
  (targetAddress - instructionAddress).extractLsb' 0 32

/-- The word of a call, laid out row by row from the format tables R62 to R65, the highest bits first. The machine does
not use it: the packers compute their words by writer calls (R66), and that the two agree is a statement. -/
def encode : Instr → Word
  | .moveImmediate register immediate =>
    0b01010010100#11 ++ immediate.extractLsb' 0 16 ++ register.extractLsb' 0 5
  | .addressLoad register target instruction =>
    0b0#1 ++ (formatDisplacement target instruction).extractLsb' 0 2 ++ 0b10000#5 ++
      (formatDisplacement target instruction).extractLsb' 2 19 ++ register.extractLsb' 0 5
  | .byteStore source base =>
    0b0011100100000000000000#22 ++ base.extractLsb' 0 5 ++ source.extractLsb' 0 5
  | .branch target instruction =>
    0b000101#6 ++ (formatDisplacement target instruction).extractLsb' 2 26

end Sys2Proof
end

