-- ==== Sys2Proof/Machine/State.lean ====
section
/-! DEFINITION. The state of the model, its reset, and the reasons a step can stop. The block has no state (R20): State
holds the caller's side, the calls still asked for and the words returned so far. -/

namespace Sys2Proof.Machine

/-- One call by the caller: an input tuple on the ports of one unit (R22 to R26). -/
inductive Call where
  /-- A call of one of the four packers. -/
  | pack (i : Instr)
  /-- A direct call `BFW(src, src_start, dst_in, dst_start, count)` of the writer, arguments in the order of R80. -/
  | write (src : Word) (srcStart : Nat) (dstIn : Word) (dstStart count : Nat)
deriving DecidableEq, Repr

/-- One returned word, on the output port of the operation that returned it (R22 to R26). D17 observes the word alone;
the operation's name beside it is the model's (log entry 12). -/
structure Answer where
  operation : Operation
  word : Word
deriving DecidableEq, Repr

/-- The model's state. Neither field is the block's (R20, R34): both are the caller's side (D17; log entry 1). -/
structure State where
  /-- The calls the caller still asks for, in the caller's order. -/
  calls : List Call
  /-- The words returned so far, oldest first. -/
  answers : List Answer
deriving DecidableEq, Repr

/-- The faults of the machine: none. No operation raises an exception, trap or error of any kind (R180), so there is no
constructor. DEDUCED (log entry 20). -/
inductive Fault where
deriving DecidableEq, Repr

/-- Why a step gives a call no meaning. -/
inductive Refusal where
  /-- Raised by `exec` for an instruction that has no meaning yet. Safe. No arm raises it in this model. -/
  | notModelled (mnemonic : String)
  /-- Raised by a direct writer call with `src_start + count > 32` or `dst_start + count > 32`: the spec gives it no
  meaning and forbids any particular value (R84, R182, D5). Safe. -/
  | writerBounds
  /-- Raised under the policy `refuse` only, by a packer call with an operand outside the contract of R205 (R11, R184).
  Safe. The machine runs under `truncate` and never raises it. -/
  | outOfContract
deriving DecidableEq, Repr

/-- What one step answers. -/
abbrev Result := Host.Outcome State Fault Refusal

/-- The model right after power-up. The block has no reset and nothing to reset (R35, R200); the caller has asked for
nothing and been answered nothing. DESIGN CHOICE (log entry 2). -/
def State.reset : State := { calls := [], answers := [] }

end Sys2Proof.Machine
end

