-- ==== Sys2Proof/Machine/Ops.lean ====
section
/-! DEFINITION. The shared operations: the bit-field writer (40_bitfield_writer.md), the chain of writer calls of a packer
(R21), and answering a call. The block takes no exception and returns from none (R180, R185, R186), so there is no
operation for either. -/

namespace Sys2Proof.Machine

/-- The three positions of a writer call, with the bounds of R84 as proofs: positions that break them cannot be
written down. -/
structure Slot where
  srcStart : Nat
  dstStart : Nat
  count : Nat
  srcBound : srcStart + count ≤ 32
  dstBound : dstStart + count ≤ 32
deriving DecidableEq, Repr

/-- The positions of a direct writer call, if they keep the bounds of R84. -/
def slotOf? (srcStart dstStart count : Nat) : Option Slot :=
  if h : srcStart + count ≤ 32 ∧ dstStart + count ≤ 32 then some ⟨srcStart, dstStart, count, h.1, h.2⟩ else none

/-- The word with bit `k` set. -/
def setBit (w : Word) (k : Nat) : Word := w ||| (1#32 <<< k)

/-- The loop of R80 over its first `n` offsets: source bit `srcStart + i` that is 1 sets destination bit
`dstStart + i`. -/
def bfwLoop (src : Word) (srcStart : Nat) (dstIn : Word) (dstStart : Nat) : Nat → Word
  | 0 => dstIn
  | i + 1 =>
    let d := bfwLoop src srcStart dstIn dstStart i
    if src.getLsbD (srcStart + i) then setBit d (dstStart + i) else d

/-- The bit-field writer `BFW` (R80), a pure function (R92), defined only within its bounds (R84). -/
def bfw (src dstIn : Word) (slot : Slot) : Word :=
  bfwLoop src slot.srcStart dstIn slot.dstStart slot.count

/-- One writer call a packer makes: a row of the table of R66 with the value of its source. -/
structure WriterCall where
  src : Word
  slot : Slot
deriving DecidableEq, Repr

/-- The word of a packer: its template, mutated by its writer calls in order (R21: `w0, w1, ...`, the last returned). -/
def packWith (template : Word) (calls : List WriterCall) : Word :=
  calls.foldl (fun w call => bfw call.src w call.slot) template

/-- The caller takes one returned word; nothing else changes (R13, R37, R160). -/
def State.answered (s : State) (operation : Operation) (word : Word) : State :=
  { s with answers := s.answers ++ [⟨operation, word⟩] }

/-- The outcome of a packer call whose rules give `word`, under an `OVERSIZE_POLICY` (R11): `truncate` always answers;
`refuse` gives no meaning to a call with any operand out of contract (R184). -/
def answerUnder (policy : Config.OversizePolicy) (i : Instr) (word : Word) (s : State) : Result :=
  match policy with
  | .truncate => .next (s.answered i.operation word)
  | .refuse => if i.wellFormed then .next (s.answered i.operation word) else .refused .outOfContract

end Sys2Proof.Machine
end

