-- ==== Sys2Proof/Machine/Operands.lean ====
section
/-! DEFINITION. Operand assembly (R67): the writer positions of every operand (R66) and the arithmetic of displacements
(R111, R141, R142, R163, R164). -/

namespace Sys2Proof.Machine

/-- Register to `w[4:0]`: move-immediate, address-load and byte-store source, call 1 of each (R66). -/
def registerSlot : Slot := ⟨0, 0, 5, by decide, by decide⟩

/-- Immediate to `w[20:5]`: move-immediate, call 2 (R66). -/
def immediateSlot : Slot := ⟨0, 5, 16, by decide, by decide⟩

/-- `disp[1:0]` to `w[30:29]`: address-load, call 2 (R66, R112). -/
def dispLowSlot : Slot := ⟨0, 29, 2, by decide, by decide⟩

/-- `disp[20:2]` to `w[23:5]`: address-load, call 3 (R66, R112). -/
def dispHighSlot : Slot := ⟨2, 5, 19, by decide, by decide⟩

/-- Base register to `w[9:5]`: byte-store, call 2 (R66). -/
def baseSlot : Slot := ⟨0, 5, 5, by decide, by decide⟩

/-- `off[25:0]` to `w[25:0]`: branch, call 1 (R66). -/
def offsetSlot : Slot := ⟨0, 0, 26, by decide, by decide⟩

/-- The displacement `trunc_32(target - instruction)` of R111 and R141: the subtraction is unsigned and wraps at the
width of the addresses, then the low 32 bits are kept (R163). Any address width is taken; the machine's is 64. -/
def displacement {n : Nat} (targetAddress instructionAddress : BitVec n) : Word :=
  (targetAddress - instructionAddress).setWidth 32

/-- The word-aligned offset `disp >> 2`, a logical shift at 32 bits (R142, 90_conflicts.md C2; log entry 16). -/
def wordOffset (disp : Word) : Word := disp >>> 2

end Sys2Proof.Machine
end

