-- ==== Sys2Proof/Machine/AddressLoad.lean ====
section
/-! DEFINITION. The packer `ENC_ADDRESS_LOAD` (42_address_load.md). -/

namespace Sys2Proof.Machine

/-- The opcode template of the form (R61; the literal is UNVERIFIED, log entry 17). -/
def addressLoadTemplate : Word := 0x10000000#32

/-- The writer calls of R66 and R110, in order: the displacement goes to two separated fields (R112). -/
def addressLoadCalls (register disp : Word) : List WriterCall :=
  [⟨register, registerSlot⟩, ⟨disp, dispLowSlot⟩, ⟨disp, dispHighSlot⟩]

/-- The word `ENC_ADDRESS_LOAD(register, target_address, instruction_address)` returns (R110), for addresses of any one
width (R166). -/
def packAddressLoad {n : Nat} (register : Word) (targetAddress instructionAddress : BitVec n) : Word :=
  packWith addressLoadTemplate (addressLoadCalls register (displacement targetAddress instructionAddress))

/-- The evaluation under a given `OVERSIZE_POLICY` (R11, R115). -/
def addressLoadUnder (policy : Config.OversizePolicy) (register : Word) (targetAddress instructionAddress : Addr)
    (s : State) : Result :=
  answerUnder policy (.addressLoad register targetAddress instructionAddress)
    (packAddressLoad register targetAddress instructionAddress) s

/-- The evaluation under the machine's policy (R110). -/
def execAddressLoad (register : Word) (targetAddress instructionAddress : Addr) (s : State) : Result :=
  addressLoadUnder Config.oversizePolicy register targetAddress instructionAddress s

end Sys2Proof.Machine
end

