-- ==== Sys2Proof/Machine/Branch.lean ====
section
/-! DEFINITION. The packer `ENC_BRANCH` (44_branch.md). -/

namespace Sys2Proof.Machine

/-- The opcode template of the form (R61; the literal is UNVERIFIED, log entry 17). -/
def branchTemplate : Word := 0x14000000#32

/-- The writer call of R66 and R140. -/
def branchCalls (off : Word) : List WriterCall := [⟨off, offsetSlot⟩]

/-- The word `ENC_BRANCH(target_address, instruction_address)` returns (R140), for addresses of any one width (R166). -/
def packBranch {n : Nat} (targetAddress instructionAddress : BitVec n) : Word :=
  packWith branchTemplate (branchCalls (wordOffset (displacement targetAddress instructionAddress)))

/-- The evaluation under a given `OVERSIZE_POLICY` (R11, R145, R146). -/
def branchUnder (policy : Config.OversizePolicy) (targetAddress instructionAddress : Addr) (s : State) : Result :=
  answerUnder policy (.branch targetAddress instructionAddress) (packBranch targetAddress instructionAddress) s

/-- The evaluation under the machine's policy (R140). -/
def execBranch (targetAddress instructionAddress : Addr) (s : State) : Result :=
  branchUnder Config.oversizePolicy targetAddress instructionAddress s

end Sys2Proof.Machine
end

