-- ==== Sys2Proof/Machine/ByteStore.lean ====
section
/-! DEFINITION. The packer `ENC_BYTE_STORE` (43_byte_store.md). -/

namespace Sys2Proof.Machine

/-- The opcode template of the form (R61; the literal is UNVERIFIED, log entry 17). The zero offset of the store is part
of it (R64). -/
def byteStoreTemplate : Word := 0x39000000#32

/-- The writer calls of R66 and R130, in order: the value's register goes to the low field (R132). -/
def byteStoreCalls (sourceRegister baseRegister : Word) : List WriterCall :=
  [⟨sourceRegister, registerSlot⟩, ⟨baseRegister, baseSlot⟩]

/-- The word `ENC_BYTE_STORE(source_register, base_register)` returns (R130). -/
def packByteStore (sourceRegister baseRegister : Word) : Word :=
  packWith byteStoreTemplate (byteStoreCalls sourceRegister baseRegister)

/-- The evaluation under a given `OVERSIZE_POLICY` (R11, R133). -/
def byteStoreUnder (policy : Config.OversizePolicy) (sourceRegister baseRegister : Word) (s : State) : Result :=
  answerUnder policy (.byteStore sourceRegister baseRegister) (packByteStore sourceRegister baseRegister) s

/-- The evaluation under the machine's policy (R130). -/
def execByteStore (sourceRegister baseRegister : Word) (s : State) : Result :=
  byteStoreUnder Config.oversizePolicy sourceRegister baseRegister s

end Sys2Proof.Machine
end

