-- ==== Sys2Proof/Machine/MoveImmediate.lean ====
section
/-! DEFINITION. The packer `ENC_MOVE_IMMEDIATE` (41_move_immediate.md). -/

namespace Sys2Proof.Machine

/-- The opcode template of the form (R61; the literal is UNVERIFIED, log entry 17). -/
def moveImmediateTemplate : Word := 0x52800000#32

/-- The writer calls of R66 and R100, in order. -/
def moveImmediateCalls (register immediate : Word) : List WriterCall :=
  [⟨register, registerSlot⟩, ⟨immediate, immediateSlot⟩]

/-- The word `ENC_MOVE_IMMEDIATE(register, immediate)` returns (R100). -/
def packMoveImmediate (register immediate : Word) : Word :=
  packWith moveImmediateTemplate (moveImmediateCalls register immediate)

/-- The evaluation under a given `OVERSIZE_POLICY` (R11, R103). -/
def moveImmediateUnder (policy : Config.OversizePolicy) (register immediate : Word) (s : State) : Result :=
  answerUnder policy (.moveImmediate register immediate) (packMoveImmediate register immediate) s

/-- The evaluation under the machine's policy (R100). -/
def execMoveImmediate (register immediate : Word) (s : State) : Result :=
  moveImmediateUnder Config.oversizePolicy register immediate s

end Sys2Proof.Machine
end

