-- ==== Sys2Proof/Machine/Dispatch.lean ====
section
/-! DEFINITION. exec: one arm per constructor of Instr, each one call of that packer's meaning. -/

namespace Sys2Proof.Machine

def exec (i : Instr) (s : State) : Host.Outcome State Fault Refusal :=
  match i with
  | .moveImmediate register immediate => Sys2Proof.Machine.execMoveImmediate register immediate s
  | .addressLoad register target instruction => Sys2Proof.Machine.execAddressLoad register target instruction s
  | .byteStore source base => Sys2Proof.Machine.execByteStore source base s
  | .branch target instruction => Sys2Proof.Machine.execBranch target instruction s

end Sys2Proof.Machine
end

