-- ==== Sys2Proof/Machine/Writer.lean ====
section
/-! DEFINITION. A direct call of the bit-field writer, the one operation of the block with no row in the opcode table
(40_bitfield_writer.md R80, R84). -/

namespace Sys2Proof.Machine

/-- `BFW(src, src_start, dst_in, dst_start, count)` called by the caller itself: within the bounds the word of R80 is
returned and nothing else happens (R92); outside them the call has no meaning and is refused (R84, R182). -/
def execWriter (src : Word) (srcStart : Nat) (dstIn : Word) (dstStart count : Nat) (s : State) : Result :=
  match slotOf? srcStart dstStart count with
  | some slot => .next (s.answered .bfw (bfw src dstIn slot))
  | none => .refused .writerBounds

end Sys2Proof.Machine
end

