-- ==== Sys2Proof/Machine/Calls.lean ====
section
/-! DEFINITION. Serving the caller: taking the next pending call, evaluating it, and placing the call that an opcode-table
word names. -/

namespace Sys2Proof.Machine

/-- One evaluation: the unit the caller chose, on the caller's input tuple (R12, D17). -/
def perform (call : Call) (s : State) : Result :=
  match call with
  | .pack i => exec i s
  | .write src srcStart dstIn dstStart count => execWriter src srcStart dstIn dstStart count s

/-- Serve the next pending call in the caller's order (D17). With no call pending nothing is evaluated and nothing
changes. DESIGN CHOICE (log entry 4). -/
def serveNext (s : State) : Result :=
  match s.calls with
  | [] => .next s
  | call :: rest => perform call { s with calls := rest }

/-- The caller's next call becomes the packer call `i`. -/
def State.withNextCall (s : State) (i : Instr) : State := { s with calls := .pack i :: s.calls }

/-- The caller's next call becomes the one the table word names; a word of no form names no call, and the block never
receives a word (R72), so nothing is placed for it. DESIGN CHOICE (log entries 3 and 9). -/
def placeTableWord (s : State) (nbits w : Nat) : State :=
  match decodeTableWord nbits w with
  | some i => s.withNextCall i
  | none => s

end Sys2Proof.Machine
end

