-- ==== Sys2Proof/Machine/Step.lean ====
section
/-! DEFINITION. One step of the model: one evaluation (92_eei_decisions.md D17). -/

namespace Sys2Proof.Machine

/-- One step serves the next pending call. -/
def step (s : State) : Host.Outcome State Fault Refusal := serveNext s

/-- `s` with the call that the table word names standing as the caller's next call. -/
def State.withFetchWord (s : State) (nbits w : Nat) : State := placeTableWord s nbits w

end Sys2Proof.Machine
end

