-- ==== Sys2Proof/Machine/Packers.lean ====
section
/-! DEFINITION. The four packers seen as one: template, writer calls and word of any call, and its evaluation under either
value of `OVERSIZE_POLICY`. -/

namespace Sys2Proof.Machine

/-- The template a call starts from (R61, R201). -/
def templateOf : Instr → Word
  | .moveImmediate _ _ => moveImmediateTemplate
  | .addressLoad _ _ _ => addressLoadTemplate
  | .byteStore _ _ => byteStoreTemplate
  | .branch _ _ => branchTemplate

/-- The writer calls a call makes, in the order of the table of R66 (log entry 19). -/
def writerCallsOf : Instr → List WriterCall
  | .moveImmediate register immediate => moveImmediateCalls register immediate
  | .addressLoad register target instruction => addressLoadCalls register (displacement target instruction)
  | .byteStore source base => byteStoreCalls source base
  | .branch target instruction => branchCalls (wordOffset (displacement target instruction))

/-- The word a call returns (R100, R110, R130, R140). -/
def wordOf : Instr → Word
  | .moveImmediate register immediate => packMoveImmediate register immediate
  | .addressLoad register target instruction => packAddressLoad register target instruction
  | .byteStore source base => packByteStore source base
  | .branch target instruction => packBranch target instruction

/-- A packer call evaluated under a given `OVERSIZE_POLICY` (R11). The machine's own `exec` is this at
`Config.oversizePolicy`. -/
def execUnder (policy : Config.OversizePolicy) (i : Instr) (s : State) : Result :=
  match i with
  | .moveImmediate register immediate => moveImmediateUnder policy register immediate s
  | .addressLoad register target instruction => addressLoadUnder policy register target instruction s
  | .byteStore source base => byteStoreUnder policy source base s
  | .branch target instruction => branchUnder policy target instruction s

end Sys2Proof.Machine
end

