-- ==== Sys2Proof/Safety.lean ====
section
/-! DEFINITION. What the claims call a safe run and a sound record of answers. -/

namespace Sys2Proof.Safety

open Sys2Proof.Machine

/-- A call that the block gives a meaning: any packer call (R161), and a writer call within its bounds (R84). -/
def callDefined : Call → Bool
  | .pack _ => true
  | .write _ srcStart _ dstStart count => decide (srcStart + count ≤ 32) && decide (dstStart + count ≤ 32)

/-- The answer a defined call is to get: the word the rules of its operation give, and none for an undefined call. -/
def answerTo : Call → Option Answer
  | .pack i => some ⟨i.operation, wordOf i⟩
  | .write src srcStart dstIn dstStart count =>
    (slotOf? srcStart dstStart count).map fun slot => ⟨.bfw, bfw src dstIn slot⟩

/-- A recorded answer is sound when a packer's word matches the row of its form (R70, R72): no input can have altered
its fixed bits. The writer's own words are of no form (R80). -/
def answerSound (a : Answer) : Bool :=
  match a.operation.form? with
  | some f => f.admits a.word
  | none => true

/-- Every answer on record is sound. -/
def AnswersSound (s : State) : Prop := ∀ a ∈ s.answers, answerSound a = true

/-- Every pending call is one the block gives a meaning. -/
def CallsDefined (s : State) : Prop := ∀ c ∈ s.calls, callDefined c = true

/-- Two packer calls name the same operands, where the pair of addresses counts as the single operand `D` (R168). -/
def SameOperands : Instr → Instr → Prop
  | .moveImmediate register immediate, .moveImmediate register' immediate' =>
    register = register' ∧ immediate = immediate'
  | .addressLoad register target instruction, .addressLoad register' target' instruction' =>
    register = register' ∧ distance target instruction = distance target' instruction'
  | .byteStore source base, .byteStore source' base' => source = source' ∧ base = base'
  | .branch target instruction, .branch target' instruction' =>
    distance target instruction = distance target' instruction'
  | _, _ => False

/-- The answers a list of calls is to get, in the caller's order (D17). -/
def answersTo (calls : List Call) : List Answer := calls.filterMap answerTo

/-- The run from `s` never stops: after any number of steps there is a next state. -/
def RunsForever (s : State) : Prop := ∀ k, ∃ t, Sys2Proof.core.run k s = .next t

end Sys2Proof.Safety
end

