-- ==== Sys2Proof/Certificates/Slice0/Obligations.lean ====
section
/-! DEFINITION. The statements for the provers, taken from the numbered rules of spec/. A statement about an answer gives the
whole next state: `s.answered op w` is `s` with `w` appended to its answers under `op`, and nothing else changed. -/

open Sys2Proof Sys2Proof.Machine Sys2Proof.Safety

/-! The bit-field writer (40_bitfield_writer.md). -/

/-- R80: a direct call within the bounds answers, and its word is given alike by the loop, by the per-bit form and by the
mask and shift form; the rule's worked example is the last clause. -/
def Obligations.WriterCallAnswersItsThreeForms : Prop :=
  (∀ (s : State) (rest : List Call) (src dstIn : Word) (srcStart dstStart count : Nat),
    s.calls = .write src srcStart dstIn dstStart count :: rest →
    srcStart + count ≤ 32 → dstStart + count ≤ 32 →
    ∃ w : Word,
      step s = .next { calls := rest, answers := s.answers ++ [⟨.bfw, w⟩] } ∧
      w = (List.range count).foldl
        (fun d i => if src.getLsbD (srcStart + i) then d ||| BitVec.twoPow 32 (dstStart + i) else d) dstIn ∧
      (∀ k < 32, w.getLsbD k =
        if dstStart ≤ k ∧ k < dstStart + count then dstIn.getLsbD k || src.getLsbD (srcStart + (k - dstStart))
        else dstIn.getLsbD k) ∧
      w = dstIn ||| (((src >>> srcStart) &&& BitVec.ofNat 32 (2 ^ count - 1)) <<< dstStart)) ∧
  ∀ s : State, execWriter 0x00001234#32 0 0x52800005#32 5 16 s = .next (s.answered .bfw 0x52824685#32)

/-- R84: a direct call outside the bounds has no meaning and is refused; no packer can make such a call. -/
def Obligations.WriterCallOutsideBoundsIsRefused : Prop :=
  (∀ (s : State) (rest : List Call) (src dstIn : Word) (srcStart dstStart count : Nat),
    s.calls = .write src srcStart dstIn dstStart count :: rest →
    ¬ (srcStart + count ≤ 32 ∧ dstStart + count ≤ 32) →
    step s = .refused .writerBounds) ∧
  ∀ i : Instr, ∀ c ∈ writerCallsOf i,
    c.slot.srcStart + c.slot.count ≤ 32 ∧ c.slot.dstStart + c.slot.count ≤ 32

/-- R81, R87: the writer only sets bits; bits outside the field, and bits inside it whose source bit is 0, are untouched. -/
def Obligations.WriterOnlySetsBitsOfItsField : Prop :=
  ∀ (src dstIn : Word) (slot : Slot) (k : Nat), k < 32 →
    (dstIn.getLsbD k = true → (bfw src dstIn slot).getLsbD k = true) ∧
    (¬ (slot.dstStart ≤ k ∧ k < slot.dstStart + slot.count) →
      (bfw src dstIn slot).getLsbD k = dstIn.getLsbD k) ∧
    (slot.dstStart ≤ k → k < slot.dstStart + slot.count →
      src.getLsbD (slot.srcStart + (k - slot.dstStart)) = false →
      (bfw src dstIn slot).getLsbD k = dstIn.getLsbD k)

/-- R82: a field that is zero beforehand receives an exact copy of the source slice, any other field the OR of its old
content and the slice; and every call a packer makes meets a zero field. -/
def Obligations.WriterCopiesIntoZeroFields : Prop :=
  (∀ (src dstIn : Word) (slot : Slot), 1 ≤ slot.count →
    (dstIn.extractLsb' slot.dstStart slot.count = 0#slot.count →
      (bfw src dstIn slot).extractLsb' slot.dstStart slot.count = src.extractLsb' slot.srcStart slot.count) ∧
    (bfw src dstIn slot).extractLsb' slot.dstStart slot.count =
      dstIn.extractLsb' slot.dstStart slot.count ||| src.extractLsb' slot.srcStart slot.count) ∧
  ∀ (i : Instr) (before after : List WriterCall) (c : WriterCall), writerCallsOf i = before ++ c :: after →
    1 ≤ c.slot.count ∧
    (packWith (templateOf i) before).extractLsb' c.slot.dstStart c.slot.count = 0#c.slot.count

/-- R83: source bits outside the slice are never read. -/
def Obligations.WriterReadsOnlyItsSlice : Prop :=
  ∀ (src src' dstIn : Word) (slot : Slot),
    src.extractLsb' slot.srcStart slot.count = src'.extractLsb' slot.srcStart slot.count →
    bfw src dstIn slot = bfw src' dstIn slot

/-- R85: with `count = 0` the writer returns its destination for any source and any starts up to 32; no packer uses it. -/
def Obligations.WriterWithCountZeroReturnsDestination : Prop :=
  (∀ (src dstIn : Word) (srcStart dstStart : Nat) (s : State), srcStart ≤ 32 → dstStart ≤ 32 →
    execWriter src srcStart dstIn dstStart 0 s = .next (s.answered .bfw dstIn)) ∧
  ∀ i : Instr, ∀ c ∈ writerCallsOf i, c.slot.count ≠ 0

/-- R86: with `count = 32` the bounds force both starts to 0, and a full-width copy into zero is the source. -/
def Obligations.WriterFullWidthCopyIsTheSource : Prop :=
  (∀ slot : Slot, slot.count = 32 → slot.srcStart = 0 ∧ slot.dstStart = 0 ∧ ∀ src : Word, bfw src 0 slot = src) ∧
  ∀ (src : Word) (s : State), execWriter src 0 0x00000000#32 0 32 s = .next (s.answered .bfw src)

/-- R88: the destination never decreases as an unsigned integer, and its 1-bits only grow. -/
def Obligations.WriterNeverDecreasesDestination : Prop :=
  ∀ (src dstIn : Word) (slot : Slot),
    dstIn.toNat ≤ (bfw src dstIn slot).toNat ∧ bfw src dstIn slot &&& dstIn = dstIn

/-- R89: the writer has no overlap check; a bit covered by two calls is the OR of all that is written to it. -/
def Obligations.WriterOverlapIsOr : Prop :=
  ∀ (a b dstIn : Word) (p q : Slot) (k : Nat), k < 32 →
    p.dstStart ≤ k → k < p.dstStart + p.count → q.dstStart ≤ k → k < q.dstStart + q.count →
    (bfw b (bfw a dstIn p) q).getLsbD k =
      (dstIn.getLsbD k || a.getLsbD (p.srcStart + (k - p.dstStart)) || b.getLsbD (q.srcStart + (k - q.dstStart)))

/-- R90: the same call twice is the call once. -/
def Obligations.WriterIsIdempotent : Prop :=
  ∀ (src dstIn : Word) (slot : Slot), bfw src (bfw src dstIn slot) slot = bfw src dstIn slot

/-- R91: any two writer calls commute, overlapping or not. -/
def Obligations.WriterCallsCommute : Prop :=
  ∀ (a b dstIn : Word) (p q : Slot), bfw a (bfw b dstIn q) p = bfw b (bfw a dstIn p) q

/-! The move-immediate packer (41_move_immediate.md). -/

/-- R100, R101: every call answers the writer chain on the template, which is the closed form, in all three of its
readings; the worked example is the last clause. -/
def Obligations.MoveImmediateAnswersClosedForm : Prop :=
  (∀ (register immediate : Word) (s : State),
    ∃ w : Word,
      exec (.moveImmediate register immediate) s = .next (s.answered .encMoveImmediate w) ∧
      w = bfw immediate (bfw register 0x52800000#32 ⟨0, 0, 5, by decide, by decide⟩) ⟨0, 5, 16, by decide, by decide⟩ ∧
      w = 0x52800000#32 ||| (register.extractLsb' 0 5).setWidth 32 |||
        ((immediate.extractLsb' 0 16).setWidth 32 <<< 5) ∧
      w = 0x52800000#32 + (register.extractLsb' 0 5).setWidth 32 +
        ((immediate.extractLsb' 0 16).setWidth 32 <<< 5) ∧
      w.extractLsb' 21 11 = 0b01010010100#11 ∧
      w.extractLsb' 5 16 = immediate.extractLsb' 0 16 ∧
      w.extractLsb' 0 5 = register.extractLsb' 0 5) ∧
  ∀ s : State, exec (.moveImmediate 5#32 0x1234#32) s = .next (s.answered .encMoveImmediate 0x52824685#32)

/-- R102: in contract no bit is lost and both operands read back. -/
def Obligations.MoveImmediateInContractReadsBack : Prop :=
  ∀ (register immediate : Word) (s : State), register.toNat ≤ 31 → immediate.toNat ≤ 0xFFFF →
    ∃ w : Word,
      exec (.moveImmediate register immediate) s = .next (s.answered .encMoveImmediate w) ∧
      w.toNat = 0x52800000 + register.toNat + 32 * immediate.toNat ∧
      (w.extractLsb' 0 5).toNat = register.toNat ∧ (w.extractLsb' 5 16).toNat = immediate.toNat

/-- R103 under the default policy, which is the model's choice (log entry 5; the spec's own decision D4): excess operand
bits are never read and the opcode bits cannot change; under `refuse` the call has no meaning. -/
def Obligations.MoveImmediateOutOfContractTruncates : Prop :=
  ∀ (register immediate : Word) (s : State), ¬ (register.toNat ≤ 31 ∧ immediate.toNat ≤ 0xFFFF) →
    exec (.moveImmediate register immediate) s =
      exec (.moveImmediate (register &&& 0x1F#32) (immediate &&& 0xFFFF#32)) s ∧
    (∃ w : Word, exec (.moveImmediate register immediate) s = .next (s.answered .encMoveImmediate w) ∧
      w.extractLsb' 21 11 = 0b01010010100#11) ∧
    execUnder .refuse (.moveImmediate register immediate) s = .refused .outOfContract

/-! The address-load packer (42_address_load.md). -/

/-- R110, R111, R113: every call answers the writer chain on the template, which is the closed form over the wrapped and
truncated displacement; the worked example is the last clause. -/
def Obligations.AddressLoadAnswersClosedForm : Prop :=
  (∀ (register : Word) (target instruction : Addr) (s : State),
    ∃ w disp : Word,
      exec (.addressLoad register target instruction) s = .next (s.answered .encAddressLoad w) ∧
      disp.toNat = (target.toNat + (2 ^ 64 - instruction.toNat)) % 2 ^ 64 % 2 ^ 32 ∧
      disp = target.setWidth 32 - instruction.setWidth 32 ∧
      w = bfw disp (bfw disp (bfw register 0x10000000#32 ⟨0, 0, 5, by decide, by decide⟩)
        ⟨0, 29, 2, by decide, by decide⟩) ⟨2, 5, 19, by decide, by decide⟩ ∧
      w = 0x10000000#32 ||| (register.extractLsb' 0 5).setWidth 32 |||
        ((disp.extractLsb' 2 19).setWidth 32 <<< 5) ||| ((disp.extractLsb' 0 2).setWidth 32 <<< 29) ∧
      w.extractLsb' 31 1 = 0#1 ∧ w.extractLsb' 29 2 = disp.extractLsb' 0 2 ∧
      w.extractLsb' 24 5 = 0b10000#5 ∧ w.extractLsb' 5 19 = disp.extractLsb' 2 19 ∧
      w.extractLsb' 0 5 = register.extractLsb' 0 5) ∧
  ∀ s : State, exec (.addressLoad 0#32 0x1008#64 0x1000#64) s = .next (s.answered .encAddressLoad 0x10000040#32)

/-- R114: in contract the far side recovers the distance and the target exactly. The contract is read as R205 reads it,
`D = signed_64` of the wrapped difference (the model's reading, log entry 11). -/
def Obligations.AddressLoadInContractReadsBack : Prop :=
  ∀ (register : Word) (target instruction : Addr) (s : State), register.toNat ≤ 31 →
    -1048576 ≤ distance target instruction → distance target instruction < 1048576 →
    ∃ w : Word,
      exec (.addressLoad register target instruction) s = .next (s.answered .encAddressLoad w) ∧
      (w.extractLsb' 0 5).toNat = register.toNat ∧
      (w.extractLsb' 5 19 ++ w.extractLsb' 29 2).toInt = distance target instruction ∧
      target = instruction + (w.extractLsb' 5 19 ++ w.extractLsb' 29 2).signExtend 64

/-- R115 under the default policy, which is the model's choice (log entry 5; D4): the 21-bit field holds `D mod 2^21`,
the far side reads a distance off by a multiple of 2^21, and under `refuse` the call has no meaning. -/
def Obligations.AddressLoadOutOfContractTruncates : Prop :=
  ∀ (register : Word) (target instruction : Addr) (s : State),
    ¬ (register.toNat ≤ 31 ∧ -1048576 ≤ distance target instruction ∧ distance target instruction < 1048576) →
    (∃ w : Word,
      exec (.addressLoad register target instruction) s = .next (s.answered .encAddressLoad w) ∧
      Form.addressLoad.admits w = true ∧
      (w.extractLsb' 0 5).toNat = register.toNat % 32 ∧
      ((w.extractLsb' 5 19 ++ w.extractLsb' 29 2).toNat : Int) = distance target instruction % 2 ^ 21 ∧
      (2 ^ 21 : Int) ∣ (w.extractLsb' 5 19 ++ w.extractLsb' 29 2).toInt - distance target instruction) ∧
    execUnder .refuse (.addressLoad register target instruction) s = .refused .outOfContract

/-- R116: the word depends on the addresses only through their difference modulo 2^21, and on the register only
modulo 32. -/
def Obligations.AddressLoadDependsOnDistanceOnly : Prop :=
  ∀ (register register' : Word) (target instruction target' instruction' : Addr) (s : State),
    register.toNat % 32 = register'.toNat % 32 →
    (target - instruction).toNat % 2 ^ 21 = (target' - instruction').toNat % 2 ^ 21 →
    ∃ w : Word,
      exec (.addressLoad register target instruction) s = .next (s.answered .encAddressLoad w) ∧
      exec (.addressLoad register' target' instruction') s = .next (s.answered .encAddressLoad w)

/-! The byte-store packer (43_byte_store.md). -/

/-- R130, R131: every call answers the writer chain on the template, which is the closed form; the worked example is the
last clause. -/
def Obligations.ByteStoreAnswersClosedForm : Prop :=
  (∀ (source base : Word) (s : State),
    ∃ w : Word,
      exec (.byteStore source base) s = .next (s.answered .encByteStore w) ∧
      w = bfw base (bfw source 0x39000000#32 ⟨0, 0, 5, by decide, by decide⟩) ⟨0, 5, 5, by decide, by decide⟩ ∧
      w = 0x39000000#32 ||| (source.extractLsb' 0 5).setWidth 32 ||| ((base.extractLsb' 0 5).setWidth 32 <<< 5) ∧
      w.extractLsb' 10 22 = 0b0011100100000000000000#22 ∧
      w.extractLsb' 5 5 = base.extractLsb' 0 5 ∧
      w.extractLsb' 0 5 = source.extractLsb' 0 5) ∧
  ∀ s : State, exec (.byteStore 1#32 2#32) s = .next (s.answered .encByteStore 0x39000041#32)

/-- R132: the first operand goes to the low field; swapping two in-contract operands changes the word unless they are
equal. The rule's two words are the last clauses. -/
def Obligations.ByteStoreOperandOrderMatters : Prop :=
  (∀ (source base : Word) (s : State), source.toNat ≤ 31 → base.toNat ≤ 31 →
    ∃ w w' : Word,
      exec (.byteStore source base) s = .next (s.answered .encByteStore w) ∧
      exec (.byteStore base source) s = .next (s.answered .encByteStore w') ∧
      (w.extractLsb' 0 5).toNat = source.toNat ∧ (w.extractLsb' 5 5).toNat = base.toNat ∧
      (w = w' ↔ source = base)) ∧
  ∀ s : State,
    exec (.byteStore 1#32 2#32) s = .next (s.answered .encByteStore 0x39000041#32) ∧
    exec (.byteStore 2#32 1#32) s = .next (s.answered .encByteStore 0x39000022#32)

/-- R133, its out-of-contract part under the default policy, which is the model's choice (log entry 5; D4): in contract
no bit is lost and both indices read back; out of contract the word is that of the indices modulo 32; under `refuse`
the call then has no meaning. -/
def Obligations.ByteStoreIndicesModulo32 : Prop :=
  ∀ (source base : Word) (s : State),
    (source.toNat ≤ 31 → base.toNat ≤ 31 →
      ∃ w : Word,
        exec (.byteStore source base) s = .next (s.answered .encByteStore w) ∧
        w.toNat = 0x39000000 + source.toNat + 32 * base.toNat ∧
        (w.extractLsb' 0 5).toNat = source.toNat ∧ (w.extractLsb' 5 5).toNat = base.toNat) ∧
    (¬ (source.toNat ≤ 31 ∧ base.toNat ≤ 31) →
      exec (.byteStore source base) s = exec (.byteStore (source % 32#32) (base % 32#32)) s ∧
      (∃ w : Word, exec (.byteStore source base) s = .next (s.answered .encByteStore w) ∧
        w.toNat = 0x39000000 + source.toNat % 32 + 32 * (base.toNat % 32)) ∧
      execUnder .refuse (.byteStore source base) s = .refused .outOfContract)

/-! The branch packer (44_branch.md). -/

/-- R140, R141, R142, R143: every call answers the writer call on the template, which is the closed form over bits 27 to 2
of the displacement; the logical shift, the arithmetic shift and a shift before truncation all give the same word; the
worked example is the last clause. -/
def Obligations.BranchAnswersClosedForm : Prop :=
  (∀ (target instruction : Addr) (s : State),
    ∃ w disp : Word,
      exec (.branch target instruction) s = .next (s.answered .encBranch w) ∧
      disp.toNat = (target.toNat + (2 ^ 64 - instruction.toNat)) % 2 ^ 64 % 2 ^ 32 ∧
      w = bfw (disp >>> 2) 0x14000000#32 ⟨0, 0, 26, by decide, by decide⟩ ∧
      w = bfw (disp.sshiftRight 2) 0x14000000#32 ⟨0, 0, 26, by decide, by decide⟩ ∧
      w = 0x14000000#32 ||| (disp.extractLsb' 2 26).setWidth 32 ∧
      w = 0x14000000#32 ||| (((target - instruction) >>> 2).extractLsb' 0 26).setWidth 32 ∧
      w.extractLsb' 26 6 = 0b000101#6 ∧
      w.extractLsb' 0 26 = disp.extractLsb' 2 26) ∧
  ∀ s : State, exec (.branch 0x1010#64 0x1000#64) s = .next (s.answered .encBranch 0x14000004#32)

/-- R144: in contract the far side recovers the distance and the target exactly. The contract is read as R205 reads it,
`D = signed_64` of the wrapped difference (the model's reading, log entry 11). -/
def Obligations.BranchInContractReadsBack : Prop :=
  ∀ (target instruction : Addr) (s : State),
    distance target instruction % 4 = 0 →
    -134217728 ≤ distance target instruction → distance target instruction < 134217728 →
    ∃ w : Word,
      exec (.branch target instruction) s = .next (s.answered .encBranch w) ∧
      4 * (w.extractLsb' 0 26).toInt = distance target instruction ∧
      target = instruction + (w.extractLsb' 0 26 ++ 0b00#2).signExtend 64

/-- R145 under the default policy, which is the model's choice (log entry 5; D4): a distance in range that is not a
multiple of 4 is encoded as `floor(D / 4)`. -/
def Obligations.BranchMisalignedDistanceRoundsDown : Prop :=
  ∀ (target instruction : Addr) (s : State),
    distance target instruction % 4 ≠ 0 →
    -134217728 ≤ distance target instruction → distance target instruction < 134217728 →
    (∃ w : Word,
      exec (.branch target instruction) s = .next (s.answered .encBranch w) ∧
      (w.extractLsb' 0 26).toInt = Int.fdiv (distance target instruction) 4) ∧
    execUnder .refuse (.branch target instruction) s = .refused .outOfContract

/-- R146 under the default policy, which is the model's choice (log entry 5; D4): the field holds
`floor(D / 4) mod 2^26`, the far side is off by a multiple of 2^28 bytes from the distance rounded down to a whole
word, and the template bits are never disturbed. -/
def Obligations.BranchTooFarWrapsModulo26Bits : Prop :=
  ∀ (target instruction : Addr) (s : State),
    ¬ (-134217728 ≤ distance target instruction ∧ distance target instruction < 134217728) →
    (∃ w : Word,
      exec (.branch target instruction) s = .next (s.answered .encBranch w) ∧
      ((w.extractLsb' 0 26).toNat : Int) = Int.fdiv (distance target instruction) 4 % 2 ^ 26 ∧
      (2 ^ 28 : Int) ∣ 4 * (w.extractLsb' 0 26).toInt - 4 * Int.fdiv (distance target instruction) 4 ∧
      w.extractLsb' 26 6 = 0b000101#6) ∧
    execUnder .refuse (.branch target instruction) s = .refused .outOfContract

/-- R147: the word depends on the addresses only through bits 27 to 2 of their difference. -/
def Obligations.BranchDependsOnDistanceOnly : Prop :=
  ∀ (target instruction target' instruction' : Addr) (s : State),
    (target - instruction).extractLsb' 2 26 = (target' - instruction').extractLsb' 2 26 →
    ∃ w : Word,
      exec (.branch target instruction) s = .next (s.answered .encBranch w) ∧
      exec (.branch target' instruction') s = .next (s.answered .encBranch w)

/-! Laws common to the operations (45_common_laws.md), formats and decoding (30_encoding.md). -/

/-- R160: what an evaluation appends depends on its own inputs alone, not on what is pending or was answered before, and
it changes nothing else. -/
def Obligations.EvaluationDependsOnItsInputsOnly : Prop :=
  ∀ (c : Call) (s t : State),
    (∃ a : Answer,
      perform c s = .next { s with answers := s.answers ++ [a] } ∧
      perform c t = .next { t with answers := t.answers ++ [a] }) ∨
    ∃ r : Refusal, perform c s = .refused r ∧ perform c t = .refused r

/-- R161: every packer returns a word for every combination of inputs; the only call refused is a writer call that breaks
its bounds; nothing faults; `refuse` narrows the domain and changes no word. The refusal as `writerBounds` is the spec's
own decision D5 on R84 (log entry 6), that a step with no call pending is not refused is the model's idle step (log
entry 4), and 'nothing faults' only repeats that `Fault` has no constructor, the model's reading of R180 (log entry 20). -/
def Obligations.OnlyUnboundedWriterCallsAreRefused : Prop :=
  (∀ (i : Instr) (s : State), ∃ w : Word, exec i s = .next (s.answered i.operation w)) ∧
  (∀ (s : State) (r : Refusal), step s = .refused r ↔
    r = .writerBounds ∧ ∃ src srcStart dstIn dstStart count rest,
      s.calls = .write src srcStart dstIn dstStart count :: rest ∧
      ¬ (srcStart + count ≤ 32 ∧ dstStart + count ≤ 32)) ∧
  (∀ (s : State) (r : Fault), step s ≠ .fault r) ∧
  ∀ (i : Instr) (s t : State), execUnder .refuse i s = .next t → exec i s = .next t

/-- R162: any order of a packer's writer calls gives the word it answers. -/
def Obligations.WriterCallOrderIsUnobservable : Prop :=
  ∀ (i : Instr) (order : List WriterCall) (s : State), order.Perm (writerCallsOf i) →
    exec i s = .next (s.answered i.operation (packWith (templateOf i) order))

/-- R69: every field of an answered word is an exact copy of its operand slice and every other bit is the template's. -/
def Obligations.AnsweredWordIsTemplatePlusFields : Prop :=
  ∀ (i : Instr) (s : State),
    ∃ w : Word,
      exec i s = .next (s.answered i.operation w) ∧
      (∀ c ∈ writerCallsOf i,
        w.extractLsb' c.slot.dstStart c.slot.count = c.src.extractLsb' c.slot.srcStart c.slot.count) ∧
      (∀ k < 32, (∀ c ∈ writerCallsOf i, ¬ (c.slot.dstStart ≤ k ∧ k < c.slot.dstStart + c.slot.count)) →
        w.getLsbD k = (templateOf i).getLsbD k) ∧
      templateOf i &&& ~~~ i.form.mask = 0

/-- R170: within one packer the calls cover disjoint ranges and no template 1-bit, so each OR may be an addition or an
exclusive OR. -/
def Obligations.PackerWritesNoBitTwice : Prop :=
  ∀ (i : Instr) (s : State),
    (writerCallsOf i).Pairwise (fun c d =>
      c.slot.dstStart + c.slot.count ≤ d.slot.dstStart ∨ d.slot.dstStart + d.slot.count ≤ c.slot.dstStart) ∧
    (∀ c ∈ writerCallsOf i, (templateOf i).extractLsb' c.slot.dstStart c.slot.count = 0#c.slot.count) ∧
    exec i s = .next (s.answered i.operation
      ((writerCallsOf i).foldl (fun w c => w + bfw c.src 0 c.slot) (templateOf i))) ∧
    exec i s = .next (s.answered i.operation
      ((writerCallsOf i).foldl (fun w c => w ^^^ bfw c.src 0 c.slot) (templateOf i)))

/-- R70: the match and mask of each form, and the words a packer can return are exactly those that match its row. -/
def Obligations.PackersReturnExactlyTheMatchingWords : Prop :=
  ((Form.moveImmediate.mask = ~~~ 0x001FFFFF#32 ∧ Form.moveImmediate.fixedBits = 0x52800000#32) ∧
    (Form.addressLoad.mask = ~~~ 0x60FFFFFF#32 ∧ Form.addressLoad.fixedBits = 0x10000000#32) ∧
    (Form.byteStore.mask = ~~~ 0x000003FF#32 ∧ Form.byteStore.fixedBits = 0x39000000#32) ∧
    (Form.branch.mask = ~~~ 0x03FFFFFF#32 ∧ Form.branch.fixedBits = 0x14000000#32)) ∧
  ∀ (f : Form) (w : Word), f.admits w = true ↔
    ∃ i : Instr, i.form = f ∧ ∀ s : State, exec i s = .next (s.answered i.operation w)

/-- R167: the operands by which each packer reaches a given word of its form. -/
def Obligations.EveryMatchingWordIsReached : Prop :=
  ∀ (w : Word) (s : State),
    (Form.moveImmediate.admits w = true →
      exec (.moveImmediate ((w.extractLsb' 0 5).setWidth 32) ((w.extractLsb' 5 16).setWidth 32)) s =
        .next (s.answered .encMoveImmediate w)) ∧
    (Form.byteStore.admits w = true →
      exec (.byteStore ((w.extractLsb' 0 5).setWidth 32) ((w.extractLsb' 5 5).setWidth 32)) s =
        .next (s.answered .encByteStore w)) ∧
    (Form.addressLoad.admits w = true →
      ∀ f : Nat, f = (w.extractLsb' 5 19 ++ w.extractLsb' 29 2).toNat →
      exec (.addressLoad ((w.extractLsb' 0 5).setWidth 32)
          (if f < 2 ^ 20 then BitVec.ofNat 64 f else BitVec.ofNat 64 (2 ^ 64 - 2 ^ 21 + f)) 0) s =
        .next (s.answered .encAddressLoad w)) ∧
    (Form.branch.admits w = true →
      exec (.branch (BitVec.ofNat 64 (4 * (w.extractLsb' 0 26).toNat)) 0) s = .next (s.answered .encBranch w))

/-- R71: no word matches two rows, by the rule's witness bits. -/
def Obligations.FormsExcludeOneAnother : Prop :=
  (∀ (w : Word) (f g : Form), f.admits w = true → g.admits w = true → f = g) ∧
  ∀ w : Word,
    (Form.moveImmediate.admits w = true → w.extractLsb' 24 5 = 0b10010#5) ∧
    (Form.addressLoad.admits w = true → w.extractLsb' 24 5 = 0b10000#5) ∧
    (Form.byteStore.admits w = true → w.extractLsb' 24 5 = 0b11001#5) ∧
    (Form.branch.admits w = true → w.extractLsb' 26 3 = 0b101#3)

/-- R168: on the contract each packer is injective in its operands and they read back; outside it injectivity fails. -/
def Obligations.PackersAreInjectiveOnTheContract : Prop :=
  (∀ (i j : Instr) (s : State), i.wellFormed = true → j.wellFormed = true →
    ∃ w v : Word,
      exec i s = .next (s.answered i.operation w) ∧ exec j s = .next (s.answered j.operation v) ∧
      (w = v → SameOperands i j) ∧
      ∀ a : Addr, (i.instructionAddress? = none ∨ i.instructionAddress? = some a) → decodeAt a w = .ok i) ∧
  ∀ f : Form, ∃ i j : Instr, i.form = f ∧ j.form = f ∧ ¬ SameOperands i j ∧ ∀ s : State, exec i s = exec j s

/-- R169: moving both addresses by the same amount leaves the answer unchanged. -/
def Obligations.AnswersAreTranslationInvariant : Prop :=
  ∀ (register : Word) (target instruction c : Addr) (s : State),
    ∃ w v : Word,
      exec (.addressLoad register target instruction) s = .next (s.answered .encAddressLoad w) ∧
      exec (.addressLoad register (target + c) (instruction + c)) s = .next (s.answered .encAddressLoad w) ∧
      exec (.branch target instruction) s = .next (s.answered .encBranch v) ∧
      exec (.branch (target + c) (instruction + c)) s = .next (s.answered .encBranch v)

/-- R117, R148, R171: all-zero operands give the templates, and equal addresses give them with only the register
filled. -/
def Obligations.ZeroOperandsAnswerTheTemplates : Prop :=
  ∀ (register : Word) (a : Addr) (s : State),
    exec (.moveImmediate 0 0) s = .next (s.answered .encMoveImmediate 0x52800000#32) ∧
    exec (.addressLoad 0 a a) s = .next (s.answered .encAddressLoad 0x10000000#32) ∧
    exec (.byteStore 0 0) s = .next (s.answered .encByteStore 0x39000000#32) ∧
    exec (.branch a a) s = .next (s.answered .encBranch 0x14000000#32) ∧
    exec (.addressLoad register a a) s =
      .next (s.answered .encAddressLoad (0x10000000#32 ||| (register.extractLsb' 0 5).setWidth 32))

/-- R135: the same register twice is accepted like any other pair. -/
def Obligations.ByteStoreAcceptsTheSameRegisterTwice : Prop :=
  (∀ (r : Word) (s : State), r.toNat ≤ 31 →
    exec (.byteStore r r) s = .next (s.answered .encByteStore (0x39000000#32 ||| r ||| (r <<< 5)))) ∧
  ∀ s : State, exec (.byteStore 5#32 5#32) s = .next (s.answered .encByteStore 0x390000A5#32)

/-- R165: for a distance that fits 32 bits, as integers or modulo 2^64, the signed reading of the displacement is the
distance. -/
def Obligations.SignedDisplacementIsTheDistance : Prop :=
  ∀ (D : Int) (target instruction : Addr), -2 ^ 31 ≤ D → D < 2 ^ 31 →
    ((target.toNat : Int) - instruction.toNat = D ∨ target - instruction = BitVec.ofInt 64 D) →
    (displacement target instruction).toInt = D

/-- R166: for every address width from 32 up, the word is that of the addresses cut to 32 bits; no bit above 31 has an
effect, at the machine's width of 64 in particular. -/
def Obligations.AddressBitsAbove31HaveNoEffect : Prop :=
  (∀ (n : Nat) (register : Word) (target instruction : BitVec n), 32 ≤ n →
    displacement target instruction = target.setWidth 32 - instruction.setWidth 32 ∧
    packAddressLoad register target instruction =
      packAddressLoad register (target.setWidth 32) (instruction.setWidth 32) ∧
    packBranch target instruction = packBranch (target.setWidth 32) (instruction.setWidth 32)) ∧
  ∀ (register : Word) (target instruction : Addr) (s : State),
    exec (.addressLoad register target instruction) s =
      .next (s.answered .encAddressLoad
        (packAddressLoad register (target.setWidth 32) (instruction.setWidth 32))) ∧
    exec (.branch target instruction) s =
      .next (s.answered .encBranch (packBranch (target.setWidth 32) (instruction.setWidth 32)))

/-- R205: the in-contract inputs of each operation, and the equivalent reading of the two distances through the 32-bit
displacement. -/
def Obligations.ContractIsTheTableOfRanges : Prop :=
  ∀ (a b : Word) (target instruction : Addr),
    ((Instr.moveImmediate a b).wellFormed = true ↔ a.toNat ≤ 31 ∧ b.toNat ≤ 0xFFFF) ∧
    ((Instr.addressLoad a target instruction).wellFormed = true ↔
      a.toNat ≤ 31 ∧ -2 ^ 20 ≤ (target - instruction).toInt ∧ (target - instruction).toInt < 2 ^ 20) ∧
    ((Instr.byteStore a b).wellFormed = true ↔ a.toNat ≤ 31 ∧ b.toNat ≤ 31) ∧
    ((Instr.branch target instruction).wellFormed = true ↔
      (target - instruction).toInt % 4 = 0 ∧
      -2 ^ 27 ≤ (target - instruction).toInt ∧ (target - instruction).toInt < 2 ^ 27) ∧
    (addressLoadDistanceFits target instruction = true ↔
      (∀ k, 20 ≤ k → k < 32 →
        (displacement target instruction).getLsbD k = (displacement target instruction).getLsbD 20) ∧
      (target - instruction).toInt = (displacement target instruction).toInt) ∧
    ((branchDistanceAligned target instruction && branchDistanceFits target instruction) = true ↔
      (displacement target instruction).extractLsb' 0 2 = 0 ∧
      (∀ k, 27 ≤ k → k < 32 →
        (displacement target instruction).getLsbD k = (displacement target instruction).getLsbD 27) ∧
      (target - instruction).toInt = (displacement target instruction).toInt)

/-- R206, its consequence for a word placed elsewhere: read at an address moved by `c`, the word refers to a target
displaced by the same amount. It rests on the model's decoder (log entry 8). -/
def Obligations.MovedWordRefersToMovedTarget : Prop :=
  ∀ (w : Word) (a c : Addr),
    (∀ register target, decodeAt a w = .ok (.addressLoad register target a) →
      decodeAt (a + c) w = .ok (.addressLoad register (target + c) (a + c))) ∧
    (∀ target, decodeAt a w = .ok (.branch target a) →
      decodeAt (a + c) w = .ok (.branch (target + c) (a + c))) ∧
    (∀ i, decodeAt a w = .ok i → i.instructionAddress? = none → decodeAt (a + c) w = .ok i)

/-- R11, R184: `refuse` gives no meaning to a call with any operand out of contract and answers every other call as
`truncate` does; that the machine itself runs under `truncate` is the model's choice (log entry 5; D4). -/
def Obligations.PoliciesDifferOutsideTheContractOnly : Prop :=
  ∀ (i : Instr) (s : State),
    execUnder .truncate i s = .next (s.answered i.operation (packWith (templateOf i) (writerCallsOf i))) ∧
    exec i s = execUnder .truncate i s ∧
    (i.wellFormed = true → execUnder .refuse i s = execUnder .truncate i s) ∧
    (i.wellFormed = false → execUnder .refuse i s = .refused .outOfContract)

/-! The encoder, the decoder and the step. -/

/-- The writer calls of R66 realise the format tables R62 to R65: what each packer answers, by its chain of writer calls,
is the word the tables lay out, for every operand in or out of contract. -/
def Obligations.PackersRealiseTheFormatTables : Prop :=
  ∀ (i : Instr) (s : State), exec i s = .next (s.answered i.operation (encode i))

/-- Decoding the encoding of a well-formed instruction gives it back, with every operand, at the address it names. -/
def Obligations.DecodeInvertsEncode : Prop :=
  ∀ (i : Instr) (a : Addr), i.wellFormed = true →
    (i.instructionAddress? = none ∨ i.instructionAddress? = some a) → decodeAt a (encode i) = .ok i

/-- Whatever decodes is well formed and encodes to the word it came from, and exactly the words of the four forms
decode. -/
def Obligations.EncodeInvertsDecode : Prop :=
  (∀ (a : Addr) (w : Word) (i : Instr), decodeAt a w = .ok i → i.wellFormed = true ∧ encode i = w) ∧
  ∀ (a : Addr) (w : Word), (∃ i, decodeAt a w = .ok i) ↔ ∃ f : Form, f.admits w = true

/-- The words of the source's four examples, bit by bit from the formats R62 to R65, decode to the calls they stand for
(the address-load and the branch with the instruction address taken as 0, log entry 8). The last clause, that the zero word,
which matches no row of R70, is refused as `noForm`, is the model's choice (log entry 9); R72 says that no packer returns
such a word. -/
def Obligations.ExampleWordsDecode : Prop :=
  decode 0b01010010100_0001001000110100_00101#32 = .ok (.moveImmediate 5#32 0x1234#32) ∧
  decode 0b0_00_10000_0000000000000000010_00000#32 = .ok (.addressLoad 0#32 8#64 0#64) ∧
  decode 0b0011100100000000000000_00010_00001#32 = .ok (.byteStore 1#32 2#32) ∧
  decode 0b000101_00000000000000000000000100#32 = .ok (.branch 0x10#64 0#64) ∧
  decode 0x00000000#32 = .error (.noForm 0)

/-- A step runs the caller's next call as `exec` runs it, the call leaving the pending list; a word placed by
`withFetchWord` that decodes to `i` is run so; with no call pending a step changes nothing. How calls come to stand in
the list is the model's choice (log entries 1, 3 and 4). -/
def Obligations.StepRunsTheNextCall : Prop :=
  (∀ (s : State) (i : Instr) (rest : List Call), s.calls = .pack i :: rest →
    step s = exec i { s with calls := rest }) ∧
  (∀ (s : State) (w : Word) (i : Instr), decode w = .ok i → step (s.withFetchWord 32 w.toNat) = exec i s) ∧
  ∀ s : State, s.calls = [] → step s = .next s

/-- R48: a run serves every pending call once, each answer depends on its own call alone, the answers come in the
caller's order, and another order of the same calls gives the same answers in that other order. -/
def Obligations.RunAnswersEveryCallInAnyOrder : Prop :=
  ∀ (s : State) (order : List Call), CallsDefined s → order.Perm s.calls →
    (answersTo s.calls).length = s.calls.length ∧
    Sys2Proof.core.run s.calls.length s = .next { calls := [], answers := s.answers ++ answersTo s.calls } ∧
    Sys2Proof.core.run order.length { s with calls := order } =
      .next { calls := [], answers := s.answers ++ answersTo order } ∧
    (answersTo order).Perm (answersTo s.calls)

/-- R21, its 'immutable once returned' read in the model: a step never alters an answer already given, and adds at most
one. The record of answers is the model's (log entry 1). -/
def Obligations.ReturnedWordsAreImmutable : Prop :=
  ∀ s t : State, step s = .next t →
    (∃ new : List Answer, new.length ≤ 1 ∧ t.answers = s.answers ++ new) ∧
    ∃ served : List Call, served.length ≤ 1 ∧ s.calls = served ++ t.calls

/-- Every step from every state with a sound record leaves a sound record: no input of any call alters the fixed bits of
a packer's word (R72, read in the model's record of answers, log entries 1 and 12). -/
def Obligations.StepKeepsAnswersSound : Prop :=
  ∀ s t : State, AnswersSound s → step s = .next t → AnswersSound t

/-- The states whose pending calls all have a meaning are exactly those from which a step goes on into such a state, and
the step then serves the first call with the answer its operation gives it. Which calls have a meaning is said by the last
clause in the bounds of R84: a step goes on with a call pending exactly when that call is no writer call outside them. The
pending list, the idle step and the refusal are the model's (log entries 1, 4 and 6; D5). -/
def Obligations.StepKeepsCallsDefined : Prop :=
  (∀ s : State, CallsDefined s ↔
    ∃ t : State, step s = .next t ∧ CallsDefined t ∧
      t.calls = s.calls.tail ∧ t.answers = s.answers ++ answersTo (s.calls.take 1)) ∧
  ∀ (s : State) (c : Call) (rest : List Call), s.calls = c :: rest →
    ((∃ t : State, step s = .next t) ↔
      ∀ src srcStart dstIn dstStart count, c = .write src srcStart dstIn dstStart count →
        srcStart + count ≤ 32 ∧ dstStart + count ≤ 32)

/-- R209 in the model: where every pending call has a meaning, no run ever stops. The pending list and
the empty list's idle step are the model's choices (log entries 1 and 4). -/
def Obligations.DefinedCallsRunForever : Prop :=
  ∀ s : State, CallsDefined s → RunsForever s

/-- The reset state has a sound record and no undefined call. -/
def Obligations.ResetIsSoundAndDefined : Prop :=
  AnswersSound State.reset ∧ CallsDefined State.reset

/-- What reset leaves: nothing pending, nothing answered, and a step from it changes nothing. The block has no reset (R35,
R200); both values are the model's choice (log entries 2 and 4). -/
def Obligations.ResetLeavesNothing : Prop :=
  State.reset.calls = [] ∧ State.reset.answers = [] ∧ step State.reset = .next State.reset
end

