-- ==== Sys2Proof/Laws/Decode.lean ====
section
/-! SUPPORT. What the decoder can answer, said once. -/

namespace Sys2Proof

/-- A word is classified only under a form that admits it. -/
theorem admits_of_formOf {w : Word} {f : Form} (h : formOf w = some f) : f.admits w = true := by
  unfold formOf at h
  split at h
  · cases h; assumption
  · split at h
    · cases h; assumption
    · split at h
      · cases h; assumption
      · split at h
        · cases h; assumption
        · cases h

/-- A decoded call has the form of the word, and names the address it was decoded at if it names one. -/
theorem decodeAt_cases {a : Addr} {w : Word} {i : Instr} (h : decodeAt a w = .ok i) :
    formOf w = some i.form ∧ (i.instructionAddress? = none ∨ i.instructionAddress? = some a) := by
  unfold decodeAt at h
  split at h <;> cases h <;> simp_all [Instr.form, Instr.instructionAddress?]

end Sys2Proof
end

