-- ==== Sys2Proof/Laws/Writer.lean ====
section
/-! SUPPORT. What the bit-field writer can do, said once, bit by bit; later proofs cite `getLsbD_bfw` and never unfold the
loop. -/

namespace Sys2Proof.Machine

@[simp] theorem getLsbD_setBit (w : Word) (j k : Nat) :
    (setBit w j).getLsbD k = (w.getLsbD k || (decide (k < 32) && decide (k = j))) := by
  simp only [setBit, BitVec.getLsbD_or, BitVec.getLsbD_shiftLeft, BitVec.getLsbD_one]
  congr 1
  rw [Bool.eq_iff_iff]
  simp
  omega

/-- The loop after `n` offsets, bit by bit. -/
theorem getLsbD_bfwLoop (src dstIn : Word) (srcStart dstStart n k : Nat) (hk : k < 32) :
    (bfwLoop src srcStart dstIn dstStart n).getLsbD k =
      (dstIn.getLsbD k ||
        (decide (dstStart ≤ k ∧ k < dstStart + n) && src.getLsbD (srcStart + (k - dstStart)))) := by
  induction n with
  | zero => simp [bfwLoop, show ¬ (dstStart ≤ k ∧ k < dstStart) by omega]
  | succ n ih =>
    by_cases hj : k = dstStart + n
    · subst hj
      cases hs : src.getLsbD (srcStart + n) <;> simp [bfwLoop, hs, hk, -BitVec.getLsbD_eq_getElem, ih]
    · have hr : (dstStart ≤ k ∧ k < dstStart + (n + 1)) ↔ (dstStart ≤ k ∧ k < dstStart + n) := by omega
      by_cases hs : src.getLsbD (srcStart + n) <;> simp [bfwLoop, hs, ih, hj, hr]

/-- One bit of the writer's result: the destination's bit, or the source slice's where the field covers it. -/
theorem getLsbD_bfw (src dstIn : Word) (slot : Slot) (k : Nat) (hk : k < 32) :
    (bfw src dstIn slot).getLsbD k =
      (dstIn.getLsbD k ||
        (decide (slot.dstStart ≤ k ∧ k < slot.dstStart + slot.count) &&
          src.getLsbD (slot.srcStart + (k - slot.dstStart)))) :=
  getLsbD_bfwLoop src dstIn slot.srcStart slot.dstStart slot.count k hk

/-- The value a call ORs in does not depend on the destination. -/
theorem bfw_eq_or (src dstIn : Word) (slot : Slot) : bfw src dstIn slot = dstIn ||| bfw src 0 slot := by
  apply BitVec.eq_of_getLsbD_eq
  intro k hk
  simp [getLsbD_bfw _ _ _ _ hk]

theorem slotOf?_of_bounds {s d n : Nat} (hs : s + n ≤ 32) (hd : d + n ≤ 32) :
    slotOf? s d n = some ⟨s, d, n, hs, hd⟩ := by
  simp [slotOf?, hs, hd]

theorem slotOf?_of_not_bounds {s d n : Nat} (h : ¬ (s + n ≤ 32 ∧ d + n ≤ 32)) : slotOf? s d n = none := by
  simp [slotOf?, h]

@[simp] theorem packWith_nil (template : Word) : packWith template [] = template := rfl

@[simp] theorem packWith_cons (template : Word) (c : WriterCall) (cs : List WriterCall) :
    packWith template (c :: cs) = packWith (bfw c.src template c.slot) cs := rfl

end Sys2Proof.Machine
end

