-- ==== Sys2Proof/Laws/Operands.lean ====
section
/-! SUPPORT. The constants of operand assembly are the spec's parameters, and the facts every packer proof uses. -/

namespace Sys2Proof.Machine

/-- The counts of the table of R66 are the field widths of R8. -/
theorem slot_counts_are_field_widths :
    registerSlot.count = Config.regFieldW ∧ immediateSlot.count = Config.immFieldW ∧
    dispLowSlot.count = Config.adrLoW ∧ dispHighSlot.count = Config.adrHiW ∧
    dispLowSlot.count + dispHighSlot.count = Config.adrDispW ∧
    baseSlot.count = Config.regFieldW ∧ offsetSlot.count = Config.brOffW := by decide

/-- The branch shift is by `BR_SHIFT` (R8). -/
theorem wordOffset_eq_shift (disp : Word) : wordOffset disp = disp >>> Config.brShift := rfl

/-- The branch shift divides by the bytes of an instruction word (R8, R142). -/
theorem wordOffset_toNat (disp : Word) : (wordOffset disp).toNat = disp.toNat / Config.instrBytes := by
  simp [wordOffset, Nat.shiftRight_eq_div_pow]

/-- Truncation commutes with the subtraction (R111). -/
theorem displacement_eq_sub {n : Nat} (h : 32 ≤ n) (target instruction : BitVec n) :
    displacement target instruction = target.setWidth 32 - instruction.setWidth 32 := by
  apply BitVec.eq_of_toNat_eq
  have hd : (2 : Nat) ^ 32 ∣ 2 ^ n := pow_dvd_pow 2 h
  obtain ⟨k, hk⟩ := hd
  have ht := target.isLt
  have hi := instruction.isLt
  simp only [displacement, BitVec.toNat_setWidth, BitVec.toNat_sub, Nat.mod_mod_of_dvd _ (pow_dvd_pow 2 h)]
  omega

/-- The word of a call is its writer chain on its template (R21, R66). -/
theorem wordOf_eq_packWith (i : Instr) : wordOf i = packWith (templateOf i) (writerCallsOf i) := by
  cases i <;> rfl

end Sys2Proof.Machine
end

