-- ==== Sys2Proof/Laws/PerInstr.lean ====
section
/-! SUPPORT. A statement made of every instruction, one lemma per constructor: the encoder's word is of the instruction's
form, whatever the operands. -/

namespace Sys2Proof.Laws.EncodeInForm

/-- The word the format tables give a call matches the row of its form (R70). -/
def Statement (i : Instr) : Prop := encode i &&& i.form.mask = i.form.fixedBits

theorem moveImmediate (register immediate : Word) : Statement (.moveImmediate register immediate) := by
  apply BitVec.eq_of_getLsbD_eq
  intro k hk
  simp only [encode, Instr.form, Form.mask, Form.fixedBits, BitVec.getLsbD_and, BitVec.getLsbD_append]
  interval_cases k <;> simp

theorem addressLoad (register : Word) (targetAddress instructionAddress : Addr) :
    Statement (.addressLoad register targetAddress instructionAddress) := by
  apply BitVec.eq_of_getLsbD_eq
  intro k hk
  simp only [encode, Instr.form, Form.mask, Form.fixedBits, BitVec.getLsbD_and, BitVec.getLsbD_append]
  interval_cases k <;> simp

theorem byteStore (sourceRegister baseRegister : Word) : Statement (.byteStore sourceRegister baseRegister) := by
  apply BitVec.eq_of_getLsbD_eq
  intro k hk
  simp only [encode, Instr.form, Form.mask, Form.fixedBits, BitVec.getLsbD_and, BitVec.getLsbD_append]
  interval_cases k <;> simp

theorem branch (targetAddress instructionAddress : Addr) : Statement (.branch targetAddress instructionAddress) := by
  apply BitVec.eq_of_getLsbD_eq
  intro k hk
  simp only [encode, Instr.form, Form.mask, Form.fixedBits, BitVec.getLsbD_and, BitVec.getLsbD_append]
  interval_cases k <;> simp

end Sys2Proof.Laws.EncodeInForm
end

