-- ==== Sys2Proof/Laws/State.lean ====
section
/-! SUPPORT. What each update of a state does to each field. -/

namespace Sys2Proof.Machine

@[simp] theorem State.answered_calls (s : State) (op : Operation) (w : Word) : (s.answered op w).calls = s.calls := rfl

@[simp] theorem State.answered_answers (s : State) (op : Operation) (w : Word) :
    (s.answered op w).answers = s.answers ++ [⟨op, w⟩] := rfl

@[simp] theorem State.withNextCall_calls (s : State) (i : Instr) : (s.withNextCall i).calls = .pack i :: s.calls := rfl

@[simp] theorem State.withNextCall_answers (s : State) (i : Instr) : (s.withNextCall i).answers = s.answers := rfl

@[simp] theorem State.reset_calls : State.reset.calls = [] := rfl

@[simp] theorem State.reset_answers : State.reset.answers = [] := rfl

/-- Two appended answers are recognised as one only if they agree. -/
theorem State.answered_injective {s : State} {op op' : Operation} {w w' : Word}
    (h : s.answered op w = s.answered op' w') : op = op' ∧ w = w' := by
  have h' := congrArg State.answers h
  simpa using h'

end Sys2Proof.Machine
end

