-- ==== Sys2Proof/Laws/Step.lean ====
section
/-! SUPPORT. What an evaluation and a step can do, said once. -/

namespace Sys2Proof.Machine

open Sys2Proof.Safety

/-- `exec` is the evaluation under the machine's own policy. -/
theorem exec_eq_execUnder (i : Instr) (s : State) : exec i s = execUnder Config.oversizePolicy i s := by
  cases i <;> rfl

/-- Every policy's evaluation is the one shared operation, applied to the word of the call. -/
theorem execUnder_eq_answerUnder (p : Config.OversizePolicy) (i : Instr) (s : State) :
    execUnder p i s = answerUnder p i (wordOf i) s := by
  cases i <;> rfl

/-- A packer call always answers, and changes nothing but the record of answers. -/
theorem exec_eq_answered (i : Instr) (s : State) : exec i s = .next (s.answered i.operation (wordOf i)) := by
  rw [exec_eq_execUnder, execUnder_eq_answerUnder]
  rfl

/-- What one evaluation answers: the answer its call is to get, or the writer's refusal. -/
theorem perform_eq (c : Call) (s : State) :
    perform c s =
      match answerTo c with
      | some a => .next { s with answers := s.answers ++ [a] }
      | none => .refused .writerBounds := by
  cases c with
  | pack i => exact exec_eq_answered i s
  | write src srcStart dstIn dstStart count =>
    simp only [perform, execWriter, answerTo]
    cases slotOf? srcStart dstStart count <;> rfl

/-- A step with no call pending changes nothing. -/
theorem step_of_no_calls {s : State} (h : s.calls = []) : step s = .next s := by
  simp only [step, serveNext, h]

/-- A step with a call pending is that call's evaluation, the call leaving the list. -/
theorem step_of_calls {s : State} {c : Call} {rest : List Call} (h : s.calls = c :: rest) :
    step s =
      match answerTo c with
      | some a => .next { calls := rest, answers := s.answers ++ [a] }
      | none => .refused .writerBounds := by
  simp only [step, serveNext, h, perform_eq]

/-- What a step that goes on has done: nothing, or the evaluation of the first pending call. -/
theorem step_cases {s t : State} (h : step s = .next t) :
    (s.calls = [] ∧ t = s) ∨
      ∃ c rest a, s.calls = c :: rest ∧ answerTo c = some a ∧ t = { calls := rest, answers := s.answers ++ [a] } := by
  cases hc : s.calls with
  | nil =>
    rw [step_of_no_calls hc] at h
    exact .inl ⟨rfl, (Host.Outcome.next.inj h).symm⟩
  | cons c rest =>
    rw [step_of_calls hc] at h
    cases ha : answerTo c with
    | none => rw [ha] at h; cases h
    | some a =>
      rw [ha] at h
      exact .inr ⟨c, rest, a, rfl, ha, (Host.Outcome.next.inj h).symm⟩

/-- A call has an answer exactly when the block gives it a meaning. -/
theorem answerTo_isSome (c : Call) : (answerTo c).isSome = callDefined c := by
  cases c with
  | pack i => rfl
  | write src srcStart dstIn dstStart count =>
    by_cases h : srcStart + count ≤ 32 ∧ dstStart + count ≤ 32
    · simp [answerTo, callDefined, slotOf?_of_bounds h.1 h.2, h.1, h.2]
    · simp only [answerTo, callDefined, slotOf?_of_not_bounds h]
      simp only [Option.map_none, Option.isSome_none]
      symm
      simpa using h

end Sys2Proof.Machine
end

