-- ==== Sys2Proof/Laws/WellFormed.lean ====
section
/-! SUPPORT. Each check of the contract as a proposition, so that no later proof unfolds the check. -/

namespace Sys2Proof

@[simp] theorem registerFits_iff (r : Word) : registerFits r = true ↔ r.toNat < 32 := by
  simp [registerFits, Config.regFieldW]

@[simp] theorem immediateFits_iff (v : Word) : immediateFits v = true ↔ v.toNat < 65536 := by
  simp [immediateFits, Config.immFieldW]

@[simp] theorem addressLoadDistanceFits_iff (t a : Addr) :
    addressLoadDistanceFits t a = true ↔ -1048576 ≤ distance t a ∧ distance t a < 1048576 := by
  simp [addressLoadDistanceFits]

@[simp] theorem branchDistanceAligned_iff (t a : Addr) : branchDistanceAligned t a = true ↔ 4 ∣ distance t a := by
  simp [branchDistanceAligned]

@[simp] theorem branchDistanceFits_iff (t a : Addr) :
    branchDistanceFits t a = true ↔ -134217728 ≤ distance t a ∧ distance t a < 134217728 := by
  simp [branchDistanceFits]

/-- The distance is unchanged when both addresses move together (R169). -/
theorem distance_add_right (t a c : Addr) : distance (t + c) (a + c) = distance t a := by
  rw [distance, distance, add_sub_add_right_eq_sub]

end Sys2Proof
end

