-- ==== Sys2Proof/Machine/Flags.lean ====
section
/-! DEFINITION. Flags: the spec gives none. No operation reads or writes a flag, a condition code or a predicate, and none
reports overflow, carry, truncation or range failure (10_state.md R31), so there is no flag computation to define. -/
end

