-- ==== Sys2Proof/Tests/Slice0.lean ====
section
/-! SUPPORT. The model's own tests. Expected words are those of 95_test_vectors.md (S, W, M, A, B, J, X rows and P1). The
witnesses at the end show operands and states that meet the hypotheses of the statements. -/

namespace Sys2Proof.Tests

open Sys2Proof.Machine Sys2Proof.Safety

/-- The last word a result has answered. -/
def answeredWord : Result → Option Word
  | .next s => (s.answers.getLast?).map Answer.word
  | .fault _ => none
  | .refused _ => none

/-- What a result was refused for. -/
def refusal : Result → Option Refusal
  | .refused r => some r
  | .next _ => none
  | .fault _ => none

/-- A state with some calls pending. -/
def asking (calls : List Call) : State := { State.reset with calls := calls }

/-! Decoding: words written out bit by bit from the formats R62 to R65. -/

theorem test_decode_moveImmediate :
    decode 0b01010010100_1011111011101111_01001#32 = .ok (.moveImmediate 9 0xBEEF) := by decide

theorem test_decode_addressLoad :
    decode 0b0_01_10000_1010101010101010101_01000#32 = .ok (.addressLoad 8 0xFFFFFFFFFFF55555#64 0) := by decide

theorem test_decodeAt_addressLoad :
    decodeAt 0xABAAB#64 0b0_01_10000_1010101010101010101_01000#32 = .ok (.addressLoad 8 0x1000#64 0xABAAB#64) := by decide

theorem test_decode_byteStore :
    decode 0b0011100100000000000000_01010_10101#32 = .ok (.byteStore 21 10) := by decide

theorem test_decode_branch :
    decodeAt 0x5556558#64 0b000101_10101010101010101010101010#32 = .ok (.branch 0x1000#64 0x5556558#64) := by decide

theorem test_decode_refuses_other_words :
    decode 0x12800000#32 = .error (.noForm 0x12800000#32) ∧ decode 0x39400000#32 = .error (.noForm 0x39400000#32) ∧
    decode 0x90000000#32 = .error (.noForm 0x90000000#32) ∧ decode 0x94000000#32 = .error (.noForm 0x94000000#32) := by
  decide

theorem test_decodeTableWord :
    decodeTableWord 32 0x52824685 = some (.moveImmediate 5 0x1234) ∧
    decodeTableWord 32 0x10000040 = some (.addressLoad 0 8 0) ∧
    decodeTableWord 32 0x39000041 = some (.byteStore 1 2) ∧
    decodeTableWord 32 0x14000004 = some (.branch 0x10 0) ∧
    decodeTableWord 32 0 = none ∧ decodeTableWord 40 0x14000004 = none := by decide

theorem test_step_runs_placed_word :
    answeredWord (step (State.reset.withFetchWord 32 0x52824685)) = some 0x52824685#32 ∧
    answeredWord (step (State.reset.withFetchWord 32 0x10000040)) = some 0x10000040#32 ∧
    answeredWord (step (State.reset.withFetchWord 32 0x39000041)) = some 0x39000041#32 ∧
    answeredWord (step (State.reset.withFetchWord 32 0x14000004)) = some 0x14000004#32 := by decide

/-! Encoding by the format tables. -/

/-- S1, S4, S2, S3. -/
theorem test_encode_examples :
    encode (.moveImmediate 5 0x1234) = 0x52824685#32 ∧ encode (.addressLoad 0 0x1008 0x1000) = 0x10000040#32 ∧
    encode (.byteStore 1 2) = 0x39000041#32 ∧ encode (.branch 0x1010 0x1000) = 0x14000004#32 := by decide

/-! Well-formedness: each check refuses an ill-formed term one past its bound, and accepts the bound. -/

theorem test_wellFormed_refuses_register :
    (Instr.moveImmediate 32 0).wellFormed = false ∧ (Instr.addressLoad 32 0 0).wellFormed = false ∧
    (Instr.byteStore 32 0).wellFormed = false ∧ (Instr.byteStore 0 32).wellFormed = false := by decide

theorem test_wellFormed_refuses_immediate : (Instr.moveImmediate 0 0x10000).wellFormed = false := by decide

theorem test_wellFormed_refuses_addressLoad_distance :
    (Instr.addressLoad 0 0x100000 0).wellFormed = false ∧ (Instr.addressLoad 0 0 0x100001).wellFormed = false := by
  decide

theorem test_wellFormed_refuses_branch_misaligned :
    (Instr.branch 0x1006 0x1000).wellFormed = false ∧ (Instr.branch 0x1000 0x1001).wellFormed = false := by decide

theorem test_wellFormed_refuses_branch_distance :
    (Instr.branch 0x8000000 0).wellFormed = false ∧ (Instr.branch 0 0x8000004).wellFormed = false := by decide

/-- The bounds themselves, and the row A19 and J13 distances that wrap at 2^64. -/
theorem test_wellFormed_accepts_bounds :
    (Instr.moveImmediate 31 0xFFFF).wellFormed = true ∧ (Instr.addressLoad 31 0x1FFFFF 0x100000).wellFormed = true ∧
    (Instr.addressLoad 4 0 0x100000).wellFormed = true ∧ (Instr.addressLoad 0 0 0xFFFFFFFFFFFFFFFF).wellFormed = true ∧
    (Instr.byteStore 31 31).wellFormed = true ∧ (Instr.branch 0x8000FFC 0x1000).wellFormed = true ∧
    (Instr.branch 0 0x8000000).wellFormed = true ∧ (Instr.branch 0 0xFFFFFFFFFFFFFFFC).wellFormed = true := by decide

/-! The writer. -/

/-- W7, W10, W13, W14, W15. -/
theorem test_writer_vectors :
    answeredWord (execWriter 0xFFFFFFFF 2 0 5 19 State.reset) = some 0x00FFFFE0#32 ∧
    answeredWord (execWriter 0x12345678 8 0 4 12 State.reset) = some 0x00004560#32 ∧
    answeredWord (execWriter 1 0 0 31 1 State.reset) = some 0x80000000#32 ∧
    answeredWord (execWriter 0xA5A5A5A5 4 0x0F0F0F0F 8 8 State.reset) = some 0x0F0F5F0F#32 ∧
    answeredWord (execWriter 0 0 0xFFFFFFFF 5 16 State.reset) = some 0xFFFFFFFF#32 := by decide

/-- W18. -/
theorem test_writer_bounds :
    refusal (execWriter 7 0 0 0 33 State.reset) = some .writerBounds ∧
    refusal (execWriter 7 30 0 0 3 State.reset) = some .writerBounds ∧
    refusal (execWriter 7 0 0 30 3 State.reset) = some .writerBounds ∧
    refusal (execWriter 7 29 0 0 3 State.reset) = none ∧ refusal (execWriter 7 0 0 29 3 State.reset) = none := by decide

/-! The packers: one vector in contract and one outside it for each. -/

/-- M9. -/
theorem test_moveImmediate : answeredWord (exec (.moveImmediate 9 0xBEEF) State.reset) = some 0x5297DDE9#32 := by decide

/-- P4, first row: both operands too wide. The rejected pass-through word has bit 21 set. -/
theorem test_moveImmediate_truncates :
    answeredWord (exec (.moveImmediate 37 0x11234) State.reset) = some 0x52824685#32 := by decide

/-- A16. -/
theorem test_addressLoad :
    answeredWord (exec (.addressLoad 8 0x1000 0xABAAB) State.reset) = some 0x30AAAAA8#32 := by decide

/-- A19 in contract across 2^64, and X9 outside the contract. -/
theorem test_addressLoad_wraps :
    answeredWord (exec (.addressLoad 0 0 0xFFFFFFFFFFFFFFFF) State.reset) = some 0x30000000#32 ∧
    answeredWord (exec (.addressLoad 8 0x156555 0x1000) State.reset) = some 0x30AAAAA8#32 := by decide

/-- B10. -/
theorem test_byteStore : answeredWord (exec (.byteStore 21 10) State.reset) = some 0x39000155#32 := by decide

/-- X13. -/
theorem test_byteStore_truncates : answeredWord (exec (.byteStore 33 34) State.reset) = some 0x39000041#32 := by decide

/-- J10. -/
theorem test_branch : answeredWord (exec (.branch 0x1000 0x5556558) State.reset) = some 0x16AAAAAA#32 := by decide

/-- X17 and X19. -/
theorem test_branch_truncates :
    answeredWord (exec (.branch 0x1000 0x1006) State.reset) = some 0x17FFFFFE#32 ∧
    answeredWord (exec (.branch 0x8000000 0) State.reset) = some 0x16000000#32 := by decide

/-- The policy `refuse` on the words of X1 and S1. -/
theorem test_policy_refuse :
    refusal (execUnder .refuse (.moveImmediate 5 0x11234) State.reset) = some .outOfContract ∧
    answeredWord (execUnder .refuse (.moveImmediate 5 0x1234) State.reset) = some 0x52824685#32 := by decide

/-! A harness that stores words takes the byte order as its own parameter (R42, D7); the block has none. -/

/-- `WORD_BYTE_ORDER` of D7. -/
inductive WordByteOrder where
  | little
  | big
deriving DecidableEq, Repr

/-- The bytes of one word, lowest address first. -/
def wordBytes (order : WordByteOrder) (w : Word) : List (BitVec 8) :=
  let bytes := [w.extractLsb' 0 8, w.extractLsb' 8 8, w.extractLsb' 16 8, w.extractLsb' 24 8]
  match order with
  | .little => bytes
  | .big => bytes.reverse

/-- The first and last words of P1 in both orders. -/
theorem test_harness_byte_order :
    wordBytes .little 0x52800820#32 = [0x20, 0x08, 0x80, 0x52] ∧ wordBytes .big 0x52800820#32 = [0x52, 0x80, 0x08, 0x20] ∧
    wordBytes .little 0x17FFFFFD#32 = [0xFD, 0xFF, 0xFF, 0x17] := by decide

/-! Witnesses: operands and states that meet the hypotheses of the statements, at the bounds of each clause. -/

theorem witness_WriterCallAnswersItsThreeForms :
    (asking [.write 5 29 0 0 3]).calls = .write 5 29 0 0 3 :: [] ∧ 29 + 3 ≤ 32 ∧ 0 + 3 ≤ 32 := by decide

theorem witness_WriterCallOutsideBoundsIsRefused :
    (asking [.write 5 30 0 0 3]).calls = .write 5 30 0 0 3 :: [] ∧ ¬ (30 + 3 ≤ 32 ∧ 0 + 3 ≤ 32) ∧
    ¬ (0 + 3 ≤ 32 ∧ 30 + 3 ≤ 32) ∧ (⟨5, registerSlot⟩ : WriterCall) ∈ writerCallsOf (.byteStore 5 6) := by decide

theorem witness_WriterOnlySetsBitsOfItsField :
    (0x80000000#32).getLsbD 31 = true ∧
    ¬ (immediateSlot.dstStart ≤ 4 ∧ 4 < immediateSlot.dstStart + immediateSlot.count) ∧
    ¬ (immediateSlot.dstStart ≤ 21 ∧ 21 < immediateSlot.dstStart + immediateSlot.count) ∧
    immediateSlot.dstStart ≤ 20 ∧ 20 < immediateSlot.dstStart + immediateSlot.count ∧
    (0x7FFF#32).getLsbD (immediateSlot.srcStart + (20 - immediateSlot.dstStart)) = false := by decide

theorem witness_WriterCopiesIntoZeroFields :
    1 ≤ immediateSlot.count ∧ (0x52800005#32).extractLsb' immediateSlot.dstStart immediateSlot.count = 0 ∧
    writerCallsOf (.byteStore 1 2) = [⟨1, registerSlot⟩] ++ ⟨2, baseSlot⟩ :: [] := by decide

theorem witness_WriterReadsOnlyItsSlice :
    (0x25#32).extractLsb' registerSlot.srcStart registerSlot.count =
      (0x5#32).extractLsb' registerSlot.srcStart registerSlot.count ∧ (0x25#32) ≠ 0x5#32 := by decide

theorem witness_WriterWithCountZeroReturnsDestination :
    (32 : Nat) ≤ 32 ∧ (⟨1, offsetSlot⟩ : WriterCall) ∈ writerCallsOf (.branch 4 0) := by decide

theorem witness_WriterFullWidthCopyIsTheSource : (⟨0, 0, 32, by decide, by decide⟩ : Slot).count = 32 := by decide

theorem witness_WriterOverlapIsOr :
    registerSlot.dstStart ≤ 4 ∧ 4 < registerSlot.dstStart + registerSlot.count ∧
    offsetSlot.dstStart ≤ 4 ∧ 4 < offsetSlot.dstStart + offsetSlot.count := by decide

theorem witness_MoveImmediateInContractReadsBack : (31#32).toNat ≤ 31 ∧ (0xFFFF#32).toNat ≤ 0xFFFF := by decide

theorem witness_MoveImmediateOutOfContractTruncates :
    ¬ ((32#32).toNat ≤ 31 ∧ (0#32).toNat ≤ 0xFFFF) ∧ ¬ ((0#32).toNat ≤ 31 ∧ (0x10000#32).toNat ≤ 0xFFFF) := by decide

theorem witness_AddressLoadInContractReadsBack :
    (31#32).toNat ≤ 31 ∧ -1048576 ≤ distance 0 0x100000 ∧ distance 0 0x100000 < 1048576 ∧
    -1048576 ≤ distance 0xFFFFF 0 ∧ distance 0xFFFFF 0 < 1048576 := by decide

theorem witness_AddressLoadOutOfContractTruncates :
    ¬ ((32#32).toNat ≤ 31 ∧ -1048576 ≤ distance 0 0 ∧ distance 0 0 < 1048576) ∧
    ¬ ((0#32).toNat ≤ 31 ∧ -1048576 ≤ distance 0x100000 0 ∧ distance 0x100000 0 < 1048576) ∧
    ¬ ((0#32).toNat ≤ 31 ∧ -1048576 ≤ distance 0 0x100001 ∧ distance 0 0x100001 < 1048576) := by decide

theorem witness_AddressLoadDependsOnDistanceOnly :
    (33#32).toNat % 32 = (1#32).toNat % 32 ∧
    ((0x200000 : Addr) - 0).toNat % 2 ^ 21 = ((0x1000 : Addr) - 0x1000).toNat % 2 ^ 21 := by decide

/-- For `ByteStoreOperandOrderMatters` and both parts of `ByteStoreIndicesModulo32`. -/
theorem witness_ByteStore_in_and_out_of_contract :
    ((31#32).toNat ≤ 31 ∧ (0#32).toNat ≤ 31) ∧ ¬ ((32#32).toNat ≤ 31 ∧ (0#32).toNat ≤ 31) ∧
    ¬ ((0#32).toNat ≤ 31 ∧ (32#32).toNat ≤ 31) := by decide

theorem witness_BranchInContractReadsBack :
    (distance 0 0x8000000 % 4 = 0 ∧ -134217728 ≤ distance 0 0x8000000 ∧ distance 0 0x8000000 < 134217728) ∧
    (distance 0x7FFFFFC 0 % 4 = 0 ∧ -134217728 ≤ distance 0x7FFFFFC 0 ∧ distance 0x7FFFFFC 0 < 134217728) := by decide

theorem witness_BranchMisalignedDistanceRoundsDown :
    (distance 0x7FFFFFF 0 % 4 ≠ 0 ∧ -134217728 ≤ distance 0x7FFFFFF 0 ∧ distance 0x7FFFFFF 0 < 134217728) ∧
    (distance 0 0x7FFFFFF % 4 ≠ 0 ∧ -134217728 ≤ distance 0 0x7FFFFFF ∧ distance 0 0x7FFFFFF < 134217728) := by decide

theorem witness_BranchTooFarWrapsModulo26Bits :
    ¬ (-134217728 ≤ distance 0x8000000 0 ∧ distance 0x8000000 0 < 134217728) ∧
    ¬ (-134217728 ≤ distance 0 0x8000001 ∧ distance 0 0x8000001 < 134217728) := by decide

theorem witness_BranchDependsOnDistanceOnly :
    ((0x10000006 : Addr) - 0).extractLsb' 2 26 = ((0x1004 : Addr) - 0x1000).extractLsb' 2 26 := by decide

theorem witness_OnlyUnboundedWriterCallsAreRefused :
    refusal (step (asking [.write 5 0 0 31 2])) = some .writerBounds ∧ ¬ (0 + 2 ≤ 32 ∧ 31 + 2 ≤ 32) ∧
    answeredWord (execUnder .refuse (.byteStore 31 31) State.reset) = some 0x390003FF#32 := by decide

theorem witness_WriterCallOrderIsUnobservable :
    (writerCallsOf (.addressLoad 3 0x1000 0x1001)).reverse.Perm (writerCallsOf (.addressLoad 3 0x1000 0x1001)) :=
  List.reverse_perm _

theorem witness_AnsweredWordIsTemplatePlusFields :
    (⟨5, registerSlot⟩ : WriterCall) ∈ writerCallsOf (.moveImmediate 5 7) ∧
    ∀ c ∈ writerCallsOf (.moveImmediate 5 7), ¬ (c.slot.dstStart ≤ 21 ∧ 21 < c.slot.dstStart + c.slot.count) := by decide

/-- For `PackersReturnExactlyTheMatchingWords`, `EveryMatchingWordIsReached` (both halves of the 21-bit field's range) and
`FormsExcludeOneAnother`. -/
theorem witness_words_of_each_form :
    Form.moveImmediate.admits 0x529FFFFF#32 = true ∧ Form.addressLoad.admits 0x70FFFFFF#32 = true ∧
    Form.addressLoad.admits 0x707FFFFF#32 = true ∧ Form.addressLoad.admits 0x10800004#32 = true ∧
    Form.byteStore.admits 0x390003FF#32 = true ∧ Form.branch.admits 0x17FFFFFF#32 = true := by decide

theorem witness_PackersAreInjectiveOnTheContract :
    (Instr.addressLoad 31 0 0x100000).wellFormed = true ∧ (Instr.addressLoad 31 0x1000 0x101000).wellFormed = true ∧
    wordOf (.addressLoad 31 0 0x100000) = wordOf (.addressLoad 31 0x1000 0x101000) ∧
    (Instr.addressLoad 31 0 0x100000).instructionAddress? = some 0x100000 ∧
    (Instr.byteStore 1 2).instructionAddress? = none := by decide

theorem witness_ByteStoreAcceptsTheSameRegisterTwice : (31#32).toNat ≤ 31 := by decide

theorem witness_SignedDisplacementIsTheDistance :
    (((0 : Addr).toNat : Int) - (0x80000000 : Addr).toNat = -2147483648 ∧ (-2147483648 : Int) < 2147483648) ∧
    (0x7FFFFFFF : Addr) - 0 = BitVec.ofInt 64 2147483647 ∧
    (0 : Addr) - 0xFFFFFFFFFFFFFFFF = BitVec.ofInt 64 1 := by decide

theorem witness_AddressBitsAbove31HaveNoEffect : (32 : Nat) ≤ 32 ∧ (32 : Nat) ≤ 64 ∧ (32 : Nat) ≤ 100 := by decide

theorem witness_MovedWordRefersToMovedTarget :
    decodeAt 0x1004 0x10FFFFE2#32 = .ok (.addressLoad 2 0x1000 0x1004) ∧
    decodeAt 0x1004 0x17FFFFFF#32 = .ok (.branch 0x1000 0x1004) ∧
    decodeAt 0x1004 0x39000041#32 = .ok (.byteStore 1 2) ∧ (Instr.byteStore 1 2).instructionAddress? = none := by decide

theorem witness_PoliciesDifferOutsideTheContractOnly :
    (Instr.branch 0x1004 0x1000).wellFormed = true ∧ (Instr.branch 0x1003 0x1000).wellFormed = false := by decide

theorem witness_DecodeInvertsEncode :
    (Instr.branch 0 0x8000000).wellFormed = true ∧
    (Instr.branch 0 0x8000000).instructionAddress? = some 0x8000000 ∧
    (Instr.moveImmediate 31 0xFFFF).wellFormed = true ∧ (Instr.moveImmediate 31 0xFFFF).instructionAddress? = none := by
  decide

theorem witness_EncodeInvertsDecode : decodeAt 0 0x39000041#32 = .ok (.byteStore 1 2) := by decide

theorem witness_StepRunsTheNextCall :
    (asking [.pack (.byteStore 1 2)]).calls = .pack (.byteStore 1 2) :: [] ∧
    decode 0x39000041#32 = .ok (.byteStore 1 2) ∧ State.reset.calls = [] := by decide

/-- Three defined calls and the same calls in another order. -/
def someCalls : List Call := [.pack (.byteStore 33 2), .write 1 0 0 31 1, .pack (.branch 0 3)]

theorem witness_RunAnswersEveryCallInAnyOrder :
    (∀ c ∈ (asking someCalls).calls, callDefined c = true) ∧ someCalls.reverse.Perm (asking someCalls).calls :=
  ⟨by decide, List.reverse_perm _⟩

/-- A state with calls still pending and answers already recorded. -/
def midway : State := { calls := someCalls, answers := [⟨.encBranch, 0x17FFFFFF#32⟩, ⟨.bfw, 0#32⟩] }

/-- For the statements about a step that goes on (`ReturnedWordsAreImmutable`, `StepKeepsAnswersSound`,
`StepKeepsCallsDefined`) and about a run (`DefinedCallsRunForever`): all their hypotheses hold together of `midway`. -/
theorem witness_steps_and_runs :
    (∀ a ∈ midway.answers, answerSound a = true) ∧ (∀ c ∈ midway.calls, callDefined c = true) ∧
    step midway = .next { calls := someCalls.tail, answers := midway.answers ++ [⟨.encByteStore, 0x39000041#32⟩] } :=
  ⟨by decide, by decide, rfl⟩

/-- For the last clause of `StepKeepsCallsDefined`: a writer call that meets both bounds with equality, one a bit past each,
and a packer call out of contract. -/
theorem witness_StepKeepsCallsDefined :
    refusal (step (asking [.write 5 31 0 31 1])) = none ∧ (31 + 1 ≤ 32 ∧ 31 + 1 ≤ 32) ∧
    refusal (step (asking [.write 5 32 0 31 1])) = some .writerBounds ∧ ¬ (32 + 1 ≤ 32 ∧ 31 + 1 ≤ 32) ∧
    refusal (step (asking [.write 5 31 0 32 1])) = some .writerBounds ∧ ¬ (31 + 1 ≤ 32 ∧ 32 + 1 ≤ 32) ∧
    refusal (step (asking [.pack (.moveImmediate 32 0x10000)])) = none := by decide

end Sys2Proof.Tests
end

/-! PROOFS of the family 00_scope.md: the policies of R11 on a packer call, and the packer call a step runs. -/

namespace Sys2Proof.Machine

/-! What each value of `OVERSIZE_POLICY` answers (R11). -/

/-- Under `truncate` a call answers its word, in contract or out of it. -/
@[simp] theorem execUnder_truncate (i : Instr) (s : State) :
    execUnder .truncate i s = .next (s.answered i.operation (wordOf i)) := by
  rw [execUnder_eq_answerUnder]
  rfl

/-- Under `refuse` a call in contract answers its word. -/
theorem execUnder_refuse_of_wellFormed {i : Instr} (h : i.wellFormed = true) (s : State) :
    execUnder .refuse i s = .next (s.answered i.operation (wordOf i)) := by
  rw [execUnder_eq_answerUnder]
  exact if_pos h

/-- Under `refuse` a call with an operand out of contract has no meaning (R184). -/
theorem execUnder_refuse_of_not_wellFormed {i : Instr} (h : i.wellFormed = false) (s : State) :
    execUnder .refuse i s = .refused .outOfContract := by
  rw [execUnder_eq_answerUnder]
  exact if_neg (Bool.eq_false_iff.mp h)

/-! A table word placed as the next call, and the packer call a step runs. -/

/-- A word's own number, read as a table word of the full width, names the call the word decodes to. -/
theorem decodeTableWord_toNat (w : Word) : decodeTableWord 32 w.toNat = (decode w).toOption := by
  have hw : BitVec.ofNat 32 (w.toNat % 2 ^ 32) = w := by
    rw [Nat.mod_eq_of_lt w.isLt, BitVec.ofNat_toNat, BitVec.setWidth_eq]
  rw [decodeTableWord, if_pos le_rfl, hw]

/-- Placing a word that decodes puts its call in front of the pending ones. -/
theorem withFetchWord_of_decode {w : Word} {i : Instr} (h : decode w = .ok i) (s : State) :
    s.withFetchWord 32 w.toNat = s.withNextCall i := by
  have hi : decodeTableWord 32 w.toNat = some i := by
    rw [decodeTableWord_toNat, h]
    rfl
  simp only [State.withFetchWord, placeTableWord, hi]

/-- With a packer call at the head of the pending ones, a step is that call's `exec`, the call leaving the list. -/
theorem step_of_pack_call {s : State} {i : Instr} {rest : List Call} (h : s.calls = .pack i :: rest) :
    step s = exec i { s with calls := rest } := by
  rw [step_of_calls h, exec_eq_answered]
  rfl

/-- A packer call placed as the next one is run by the next step, which leaves the calls that were pending. -/
theorem step_withNextCall (s : State) (i : Instr) : step (s.withNextCall i) = exec i s :=
  step_of_pack_call (State.withNextCall_calls s i)

/-! The statements. -/

/-- Settles O43, a clause for each value of the policy in and out of contract. -/
theorem policiesDifferOutsideTheContractOnly : Obligations.PoliciesDifferOutsideTheContractOnly := by
  intro i s
  refine ⟨?truncateAnswersTheChain, ?machineTruncates, ?agreeInContract, ?refuseOutsideIt⟩
  case truncateAnswersTheChain => rw [execUnder_truncate, wordOf_eq_packWith]
  case machineTruncates => exact exec_eq_execUnder i s
  case agreeInContract =>
    intro h
    rw [execUnder_refuse_of_wellFormed h, execUnder_truncate]
  case refuseOutsideIt =>
    intro h
    exact execUnder_refuse_of_not_wellFormed h s

/-- Settles O48: a placed word is a packer call at the head of the pending ones, which a step runs. -/
theorem stepRunsTheNextCall : Obligations.StepRunsTheNextCall := by
  refine ⟨?pendingCall, ?placedWord, ?noCall⟩
  case pendingCall =>
    intro s i rest h
    exact step_of_pack_call h
  case placedWord =>
    intro s w i h
    rw [withFetchWord_of_decode h, step_withNextCall]
  case noCall =>
    intro s h
    exact step_of_no_calls h

end Sys2Proof.Machine

/-! PROOFS of the family 10_state.md: what a step that goes on does to each list of the state, and the state at reset. -/

namespace Sys2Proof.Machine

open Sys2Proof.Safety

/-! What a step does to the pending calls and to the record of answers (R21; log entry 1). -/

/-- A step that goes on leaves the pending calls without the first one. -/
theorem step_calls {s t : State} (h : step s = .next t) : t.calls = s.calls.tail := by
  obtain ⟨hs, rfl⟩ | ⟨c, rest, a, hs, -, rfl⟩ := step_cases h
  · rw [hs, List.tail_nil]
  · rw [hs, List.tail_cons]

/-- A step that goes on appends what the first pending call is to get, and keeps the answers already given. -/
theorem step_answers {s t : State} (h : step s = .next t) :
    t.answers = s.answers ++ answersTo (s.calls.take 1) := by
  obtain ⟨hs, rfl⟩ | ⟨c, rest, a, hs, ha, rfl⟩ := step_cases h
  · simp [hs, answersTo]
  · simp [hs, answersTo, ha]

/-- Each call gets at most one answer (D17). -/
theorem length_answersTo_le (calls : List Call) : (answersTo calls).length ≤ calls.length :=
  List.length_filterMap_le answerTo calls

/-! The empty lists meet the two invariants. -/

theorem answersSound_of_no_answers {s : State} (h : s.answers = []) : AnswersSound s := by
  intro a ha
  rw [h] at ha
  exact absurd ha List.not_mem_nil

theorem callsDefined_of_no_calls {s : State} (h : s.calls = []) : CallsDefined s := by
  intro c hc
  rw [h] at hc
  exact absurd hc List.not_mem_nil

/-! The statements. -/

/-- Settles O50: what is appended is the first pending call's answer, and what is served is that call. -/
theorem returnedWordsAreImmutable : Obligations.ReturnedWordsAreImmutable := by
  intro s t h
  have hserved : (s.calls.take 1).length ≤ 1 := List.length_take_le 1 s.calls
  refine ⟨⟨answersTo (s.calls.take 1), ?atMostOneAnswer, step_answers h⟩, s.calls.take 1, hserved, ?firstCallGone⟩
  case atMostOneAnswer => exact (length_answersTo_le _).trans hserved
  case firstCallGone => rw [step_calls h, ← List.drop_one, List.take_append_drop]

/-- Settles O54: both lists are empty at reset (log entry 2). -/
theorem resetIsSoundAndDefined : Obligations.ResetIsSoundAndDefined :=
  ⟨answersSound_of_no_answers State.reset_answers, callsDefined_of_no_calls State.reset_calls⟩

/-- Settles O55: with nothing pending at reset, a step is the idle one (log entries 2 and 4). -/
theorem resetLeavesNothing : Obligations.ResetLeavesNothing :=
  ⟨State.reset_calls, State.reset_answers, step_of_no_calls State.reset_calls⟩

end Sys2Proof.Machine

/-! PROOFS of the family 20_memory.md: a run serves every pending call, in whatever order (R48). -/

namespace Sys2Proof.Machine

open Sys2Proof.Safety

/-! A defined call has an answer, which depends on that call alone (D17). -/

theorem exists_answerTo_of_callDefined {c : Call} (h : callDefined c = true) : ∃ a, answerTo c = some a := by
  rw [← answerTo_isSome] at h
  exact Option.isSome_iff_exists.mp h

theorem answersTo_nil : answersTo [] = [] := rfl

theorem answersTo_cons {c : Call} {a : Answer} (h : answerTo c = some a) (rest : List Call) :
    answersTo (c :: rest) = a :: answersTo rest :=
  List.filterMap_cons_some h

/-- No defined call goes without an answer: the bound of `length_answersTo_le` is met. -/
theorem length_answersTo_of_defined {calls : List Call} (h : ∀ c ∈ calls, callDefined c = true) :
    (answersTo calls).length = calls.length := by
  induction calls with
  | nil => rfl
  | cons c rest ih =>
    obtain ⟨hc, hrest⟩ := List.forall_mem_cons.mp h
    obtain ⟨a, ha⟩ := exists_answerTo_of_callDefined hc
    rw [answersTo_cons ha, List.length_cons, List.length_cons, ih hrest]

/-! Reordering the calls. -/

/-- Since no answer depends on the calls before it, reordered calls get the same answers, reordered. -/
theorem answersTo_perm {calls order : List Call} (h : order.Perm calls) : (answersTo order).Perm (answersTo calls) :=
  h.filterMap answerTo

/-- Whether the pending calls are defined does not depend on their order, nor on the answers already given. -/
theorem callsDefined_of_perm {s t : State} (h : t.calls.Perm s.calls) (hs : CallsDefined s) : CallsDefined t :=
  fun c hc => hs c (h.mem_iff.mp hc)

/-! Runs of the host's core. -/

/-- On any machine, a run whose first step goes on is the run of the remaining steps from there. -/
theorem coreRun_succ_of_step {M : Host.Core} {s t : M.State} (h : M.step s = .next t) (k : Nat) :
    M.run (k + 1) s = M.run k t := by
  rw [Host.Core.run, h]

/-- The same of this model, whose state and step the host's core holds under names of its own. -/
theorem run_succ_of_step {s t : State} (h : step s = .next t) (k : Nat) :
    Sys2Proof.core.run (k + 1) s = Sys2Proof.core.run k t :=
  coreRun_succ_of_step (M := Sys2Proof.core) (s := s) (t := t) h k

/-- As many steps as there are pending calls serve them all, first to last, when each of them is defined. -/
theorem run_of_defined_calls (calls : List Call) (answers : List Answer) (h : ∀ c ∈ calls, callDefined c = true) :
    Sys2Proof.core.run calls.length { calls, answers } =
      .next { calls := [], answers := answers ++ answersTo calls } := by
  induction calls generalizing answers with
  | nil =>
    rw [answersTo_nil, List.append_nil]
    rfl
  | cons c rest ih =>
    obtain ⟨hc, hrest⟩ := List.forall_mem_cons.mp h
    obtain ⟨a, ha⟩ := exists_answerTo_of_callDefined hc
    have hstep : step { calls := c :: rest, answers } = .next { calls := rest, answers := answers ++ [a] } := by
      rw [step_of_calls rfl, ha]
    rw [List.length_cons, run_succ_of_step hstep, ih _ hrest, answersTo_cons ha, List.append_assoc,
      List.singleton_append]

/-! The statement. -/

/-- Settles O49: the caller's order and the other one are each served by `run_of_defined_calls`, and no answer depends
on the order. -/
theorem runAnswersEveryCallInAnyOrder : Obligations.RunAnswersEveryCallInAnyOrder := by
  intro s order hdef hperm
  have horder : CallsDefined { s with calls := order } := callsDefined_of_perm hperm hdef
  refine ⟨?oneAnswerEach, ?callersOrder, ?otherOrder, ?sameAnswers⟩
  case oneAnswerEach => exact length_answersTo_of_defined hdef
  case callersOrder => exact run_of_defined_calls s.calls s.answers hdef
  case otherOrder => exact run_of_defined_calls order s.answers horder
  case sameAnswers => exact answersTo_perm hperm

end Sys2Proof.Machine

/-! PROOFS of the family 30_encoding.md: a word carries a call when it has the fixed bits of the call's form and a copy
of each operand slice in its field (R69). The packers, the encoder and the decoder are each tied to that one relation. -/

namespace Sys2Proof.Machine

open Sys2Proof.Safety

/-! Slices of bit vectors: what a field of a word loses and keeps of its operand (R67). -/

/-- An operand that fits the field it was copied to is read back whole from it (R68). -/
theorem setWidth_extractLsb'_eq_of_lt {w v : Word} {start n : Nat} (h : w.extractLsb' start n = v.extractLsb' 0 n)
    (hv : v.toNat < 2 ^ n) : (w.extractLsb' start n).setWidth 32 = v := by
  apply BitVec.eq_of_toNat_eq
  rw [h, BitVec.toNat_setWidth, BitVec.extractLsb'_toNat, Nat.shiftRight_zero, Nat.mod_eq_of_lt hv,
    Nat.mod_eq_of_lt v.isLt]

/-- A displacement in the signed range of its field is read back whole from it (R114, R144). -/
theorem signExtend_extractLsb'_of_toInt {v n : Nat} {d : BitVec v} (hn : n ≤ v) (hlo : -2 ^ n ≤ 2 * d.toInt)
    (hhi : 2 * d.toInt < 2 ^ n) : (d.extractLsb' 0 n).signExtend v = d := by
  apply BitVec.eq_of_toInt_eq
  have hfield : ((d.extractLsb' 0 n).signExtend v).toInt = d.toInt.bmod (2 ^ n) := by
    rw [BitVec.toInt_signExtend_of_le hn, ← BitVec.setWidth_eq_extractLsb' hn, BitVec.toInt_setWidth,
      BitVec.toInt_eq_toNat_bmod, Int.bmod_bmod_of_dvd (Nat.pow_dvd_pow 2 hn)]
  rw [hfield]
  apply Int.bmod_eq_of_le_mul_two
  · push_cast; omega
  · push_cast; omega

/-- The field a sign-extended displacement was read from. -/
theorem extractLsb'_signExtend {n v : Nat} (x : BitVec n) (hn : n ≤ v) : (x.signExtend v).extractLsb' 0 n = x := by
  apply BitVec.eq_of_getLsbD_eq
  intro k hk
  rw [BitVec.getLsbD_extractLsb', BitVec.getLsbD_signExtend, Nat.zero_add, if_pos hk]
  simp [hk, hk.trans_le hn]

/-- The low bits of a multiple of a power of two are zero (R144). -/
theorem extractLsb'_eq_zero_of_dvd_toInt {v n : Nat} {d : BitVec v} (hn : n ≤ v) (h : (2 ^ n : Int) ∣ d.toInt) :
    d.extractLsb' 0 n = 0#n := by
  apply BitVec.eq_of_toInt_eq
  rw [← BitVec.setWidth_eq_extractLsb' hn, BitVec.toInt_setWidth, BitVec.toInt_zero,
    ← Int.bmod_bmod_of_dvd (Nat.pow_dvd_pow 2 hn), ← BitVec.toInt_eq_toNat_bmod]
  exact Int.bmod_eq_zero_of_dvd (by exact_mod_cast h)

/-- The same slice of two words is the same when they agree on the bits it takes. -/
theorem extractLsb'_congr {w v : Nat} {x : BitVec w} {y : BitVec v} {s s' n : Nat}
    (h : ∀ k < n, x.getLsbD (s + k) = y.getLsbD (s' + k)) : x.extractLsb' s n = y.extractLsb' s' n := by
  apply BitVec.eq_of_getLsbD_eq
  intro k hk
  rw [BitVec.getLsbD_extractLsb', BitVec.getLsbD_extractLsb', h k hk]

/-- A field put back on a wider port is the low slice of what stands there (R68). -/
theorem extractLsb'_setWidth_self {n v : Nat} (x : BitVec n) (h : n ≤ v) : (x.setWidth v).extractLsb' 0 n = x := by
  rw [BitVec.extractLsb'_setWidth_of_le (by omega), BitVec.extractLsb'_eq_self]

theorem extractLsb'_signExtend_of_le {n start len : Nat} (d : BitVec n) (hn : n ≤ 64) (h : start + len ≤ n) :
    (d.signExtend 64).extractLsb' start len = d.extractLsb' start len := by
  rw [← BitVec.extractLsb'_extractLsb'_of_le h, extractLsb'_signExtend d hn]

/-! The fields of each form: the positions of its writer calls (R66), and the rows of R70 bit by bit. -/

/-- The field covers bit `k` of the destination. -/
abbrev Slot.Covers (slot : Slot) (k : Nat) : Prop := slot.dstStart ≤ k ∧ k < slot.dstStart + slot.count

/-- The two fields share no bit (R170). -/
abbrev Slot.Disjoint (p q : Slot) : Prop := p.dstStart + p.count ≤ q.dstStart ∨ q.dstStart + q.count ≤ p.dstStart

theorem Slot.Disjoint.symm {p q : Slot} (h : p.Disjoint q) : q.Disjoint p := Or.symm h

theorem Slot.Disjoint.not_covers {p q : Slot} (h : p.Disjoint q) {k : Nat} (hp : p.Covers k) : ¬ q.Covers k := by
  obtain ⟨hlo, hhi⟩ := hp
  rintro ⟨hlo', hhi'⟩
  obtain h | h := h <;> omega

theorem Slot.Covers.lt {slot : Slot} {k : Nat} (h : slot.Covers k) : k < 32 := h.2.trans_le slot.dstBound

/-- The positions of the fields of a form, in the order of the table of R66. -/
def slotsOf : Form → List Slot
  | .moveImmediate => [registerSlot, immediateSlot]
  | .addressLoad => [registerSlot, dispLowSlot, dispHighSlot]
  | .byteStore => [registerSlot, baseSlot]
  | .branch => [offsetSlot]

/-- The positions of a call's writer calls are constants of its form (R66). -/
theorem map_slot_writerCallsOf (i : Instr) : (writerCallsOf i).map WriterCall.slot = slotsOf i.form := by
  cases i <;> rfl

theorem mem_slotsOf_iff {i : Instr} {slot : Slot} : slot ∈ slotsOf i.form ↔ ∃ c ∈ writerCallsOf i, c.slot = slot := by
  rw [← map_slot_writerCallsOf, List.mem_map]

theorem slotsOf_pairwise_disjoint (f : Form) : (slotsOf f).Pairwise Slot.Disjoint := by
  cases f <;> decide

theorem writerCallsOf_pairwise_disjoint (i : Instr) :
    (writerCallsOf i).Pairwise fun c d => c.slot.Disjoint d.slot := by
  rw [← List.pairwise_map, map_slot_writerCallsOf]
  exact slotsOf_pairwise_disjoint i.form

/-- The mask has the bits that no field covers (R70). -/
theorem getLsbD_mask_iff (f : Form) {k : Nat} (hk : k < 32) :
    f.mask.getLsbD k = true ↔ ∀ slot ∈ slotsOf f, ¬ slot.Covers k := by
  revert k
  cases f <;> decide

/-- The template of a form is 0 wherever a field may write (R69). -/
theorem fixedBits_and_not_mask (f : Form) : f.fixedBits &&& ~~~ f.mask = 0 := by
  cases f <;> decide

theorem templateOf_eq_fixedBits (i : Instr) : templateOf i = i.form.fixedBits := by
  cases i <;> rfl

theorem admits_iff {f : Form} {w : Word} : f.admits w = true ↔ w &&& f.mask = f.fixedBits := by
  rw [Form.admits, beq_iff_eq]

theorem getLsbD_fixedBits_of_covered {f : Form} {slot : Slot} {k : Nat} (hslot : slot ∈ slotsOf f)
    (hk : slot.Covers k) : f.fixedBits.getLsbD k = false := by
  have hmask : f.mask.getLsbD k = false := by
    rw [Bool.eq_false_iff, ne_eq, getLsbD_mask_iff f hk.lt]
    exact fun hall => hall slot hslot hk
  have hbit := congrArg (BitVec.getLsbD · k) (fixedBits_and_not_mask f)
  simpa [hmask, hk.lt, -BitVec.getLsbD_eq_getElem] using hbit

/-- The row of R70 bit by bit: a word is of a form when the form's fixed bits are in every bit that no field covers. -/
theorem admits_iff_uncovered_bits {f : Form} {w : Word} :
    f.admits w = true ↔
      ∀ k < 32, (∀ slot ∈ slotsOf f, ¬ slot.Covers k) → w.getLsbD k = f.fixedBits.getLsbD k := by
  rw [admits_iff, BitVec.eq_of_getLsbD_eq_iff]
  refine forall₂_congr fun k hk => ?_
  rw [BitVec.getLsbD_and]
  by_cases hfree : ∀ slot ∈ slotsOf f, ¬ slot.Covers k
  case pos =>
    rw [(getLsbD_mask_iff f hk).mpr hfree, Bool.and_true]
    exact ⟨fun h _ => h, fun h => h hfree⟩
  case neg =>
    have hmask : f.mask.getLsbD k = false := by rwa [Bool.eq_false_iff, ne_eq, getLsbD_mask_iff f hk]
    push Not at hfree
    obtain ⟨slot, hslot, hcov⟩ := hfree
    rw [hmask, Bool.and_false, getLsbD_fixedBits_of_covered hslot hcov]
    exact iff_of_true rfl fun hfree => absurd hcov (hfree slot hslot)

/-- Fixed bits can be read off any slice that lies within the mask. -/
theorem extractLsb'_of_admits {f : Form} {w : Word} {start len : Nat} (h : f.admits w = true)
    (hmask : f.mask.extractLsb' start len = BitVec.allOnes len) :
    w.extractLsb' start len = f.fixedBits.extractLsb' start len := by
  rw [← admits_iff.mp h, BitVec.extractLsb'_and, hmask, BitVec.and_allOnes]

/-- Any two forms fix a common bit in different ways (R71). -/
theorem eq_of_fixedBits_and_mask {f g : Form} (h : f.fixedBits &&& g.mask = g.fixedBits &&& f.mask) : f = g := by
  revert h
  cases f <;> cases g <;> decide

/-- A word is of one form at most (R71). -/
theorem eq_of_admits {f g : Form} {w : Word} (hf : f.admits w = true) (hg : g.admits w = true) : f = g := by
  apply eq_of_fixedBits_and_mask
  rw [← admits_iff.mp hf, ← admits_iff.mp hg, BitVec.and_assoc, BitVec.and_assoc, BitVec.and_comm f.mask]

/-- The decoder classifies a word under exactly the form that admits it. -/
theorem formOf_eq_some_iff {w : Word} {f : Form} : formOf w = some f ↔ f.admits w = true := by
  refine ⟨admits_of_formOf, fun h => ?_⟩
  have hform : ∀ g : Form, g.admits w = decide (g = f) := by
    intro g
    rw [Bool.eq_iff_iff, decide_eq_true_iff]
    exact ⟨fun hg => eq_of_admits hg h, fun hg => hg ▸ h⟩
  cases f <;> simp [formOf, hform]

/-! The chain of writer calls of a packer, bit by bit (R21, R80). -/

/-- One bit of a packer's word: the template's, or one that a writer call sets. -/
theorem getLsbD_packWith (template : Word) (calls : List WriterCall) {k : Nat} (hk : k < 32) :
    (packWith template calls).getLsbD k =
      (template.getLsbD k ||
        calls.any fun c => decide (c.slot.Covers k) && c.src.getLsbD (c.slot.srcStart + (k - c.slot.dstStart))) := by
  induction calls generalizing template with
  | nil => rw [packWith_nil, List.any_nil, Bool.or_false]
  | cons c rest ih => rw [packWith_cons, ih, getLsbD_bfw _ _ _ _ hk, List.any_cons, Bool.or_assoc]

/-- A bit that no call covers is the template's. -/
theorem getLsbD_packWith_of_uncovered (template : Word) {calls : List WriterCall} {k : Nat} (hk : k < 32)
    (h : ∀ c ∈ calls, ¬ c.slot.Covers k) : (packWith template calls).getLsbD k = template.getLsbD k := by
  have hnone : (calls.any fun c =>
      decide (c.slot.Covers k) && c.src.getLsbD (c.slot.srcStart + (k - c.slot.dstStart))) = false := by
    rw [List.any_eq_false]
    intro c hc
    rw [decide_eq_false (h c hc), Bool.false_and]
    exact Bool.false_ne_true
  rw [getLsbD_packWith template calls hk, hnone, Bool.or_false]

/-- Where the calls' fields are disjoint, the only call that touches a bit is the one that covers it. -/
theorem getLsbD_packWith_of_covered (template : Word) {calls : List WriterCall} {c : WriterCall} {k : Nat}
    (hdis : calls.Pairwise fun c d => c.slot.Disjoint d.slot) (hc : c ∈ calls) (hk : c.slot.Covers k) :
    (packWith template calls).getLsbD k =
      (template.getLsbD k || c.src.getLsbD (c.slot.srcStart + (k - c.slot.dstStart))) := by
  have honly : ∀ d ∈ calls, d.slot.Covers k → d = c := by
    have hsymm : Std.Symm fun c d : WriterCall => c.slot.Disjoint d.slot := ⟨fun _ _ h => h.symm⟩
    intro d hd hdk
    by_contra hne
    exact (hdis.forall hd hc hne).not_covers hdk hk
  rw [getLsbD_packWith template calls hk.lt]
  congr 1
  rw [Bool.eq_iff_iff, List.any_eq_true]
  constructor
  · rintro ⟨d, hd, hbit⟩
    obtain ⟨hdk, hsrc⟩ := (Bool.and_eq_true _ _).mp hbit
    obtain rfl := honly d hd (of_decide_eq_true hdk)
    exact hsrc
  · intro hsrc
    exact ⟨c, hc, by rw [decide_eq_true hk, hsrc, Bool.and_true]⟩

/-! What it is for a word to carry a call: its form's fixed bits, and a copy of every operand slice in its field (R69).
The packer's word, the encoder's word and the word that is decoded all do, and no two words do. -/

/-- `w` is of the form of `i`, and each field of it holds its slice of the operands of `i`. -/
def Carries (i : Instr) (w : Word) : Prop :=
  i.form.admits w = true ∧
  ∀ c ∈ writerCallsOf i,
    w.extractLsb' c.slot.dstStart c.slot.count = c.src.extractLsb' c.slot.srcStart c.slot.count

/-- A call is carried by one word at most, since fields and fixed bits make up the whole word. -/
theorem Carries.unique {i : Instr} {v w : Word} (hv : Carries i v) (hw : Carries i w) : v = w := by
  obtain ⟨hvForm, hvFields⟩ := hv
  obtain ⟨hwForm, hwFields⟩ := hw
  apply BitVec.eq_of_getLsbD_eq
  intro k hk
  by_cases hfree : ∀ slot ∈ slotsOf i.form, ¬ slot.Covers k
  case pos =>
    rw [admits_iff_uncovered_bits.mp hvForm k hk hfree, admits_iff_uncovered_bits.mp hwForm k hk hfree]
  case neg =>
    push Not at hfree
    obtain ⟨slot, hslot, hlo, hhi⟩ := hfree
    obtain ⟨c, hc, rfl⟩ := mem_slotsOf_iff.mp hslot
    have hbit := congrArg (BitVec.getLsbD · (k - c.slot.dstStart)) ((hvFields c hc).trans (hwFields c hc).symm)
    simpa only [BitVec.getLsbD_extractLsb', show k - c.slot.dstStart < c.slot.count by omega,
      Nat.add_sub_cancel' hlo, decide_true, Bool.true_and] using hbit

/-- A packer's word carries its call: the writer calls copy their slices into disjoint fields that are 0. -/
theorem carries_wordOf (i : Instr) : Carries i (wordOf i) := by
  rw [wordOf_eq_packWith, templateOf_eq_fixedBits]
  refine ⟨admits_iff_uncovered_bits.mpr fun k hk hfree => ?fixedBits, fun c hc => ?field⟩
  case fixedBits =>
    exact getLsbD_packWith_of_uncovered _ hk fun c hc => hfree c.slot (mem_slotsOf_iff.mpr ⟨c, hc, rfl⟩)
  case field =>
    apply extractLsb'_congr
    intro j hj
    have hcov : c.slot.Covers (c.slot.dstStart + j) := ⟨Nat.le_add_right _ _, Nat.add_lt_add_left hj _⟩
    rw [getLsbD_packWith_of_covered _ (writerCallsOf_pairwise_disjoint i) hc hcov,
      getLsbD_fixedBits_of_covered (mem_slotsOf_iff.mpr ⟨c, hc, rfl⟩) hcov, Bool.false_or, Nat.add_sub_cancel_left]

/-! Carrying, form by form, with the displacements in terms of the difference of the addresses (R62 to R65). -/

/-- Truncation to 32 bits keeps every slice of the difference below bit 32 (R111, R141). -/
theorem extractLsb'_displacement (target instruction : Addr) {start len : Nat} (h : start + len ≤ 32) :
    (displacement target instruction).extractLsb' start len = (target - instruction).extractLsb' start len :=
  BitVec.extractLsb'_setWidth_of_le h

theorem extractLsb'_formatDisplacement (target instruction : Addr) {start len : Nat} (h : start + len ≤ 32) :
    (formatDisplacement target instruction).extractLsb' start len = (target - instruction).extractLsb' start len :=
  BitVec.extractLsb'_extractLsb'_of_le h

/-- The branch offset is bits 27 to 2 of the difference (R142, R147). -/
theorem extractLsb'_wordOffset_displacement (target instruction : Addr) :
    (wordOffset (displacement target instruction)).extractLsb' 0 26 = (target - instruction).extractLsb' 2 26 := by
  rw [← extractLsb'_displacement target instruction (show 2 + 26 ≤ 32 by decide)]
  apply extractLsb'_congr
  intro k _
  rw [wordOffset, BitVec.getLsbD_ushiftRight, Nat.zero_add]

theorem carries_moveImmediate_iff {register immediate w : Word} :
    Carries (.moveImmediate register immediate) w ↔
      Form.moveImmediate.admits w = true ∧ w.extractLsb' 0 5 = register.extractLsb' 0 5 ∧
      w.extractLsb' 5 16 = immediate.extractLsb' 0 16 := by
  simp only [Carries, Instr.form, writerCallsOf, moveImmediateCalls, registerSlot, immediateSlot, List.forall_mem_cons,
    List.not_mem_nil, false_imp_iff, implies_true, and_true]

theorem carries_addressLoad_iff {register w : Word} {target instruction : Addr} :
    Carries (.addressLoad register target instruction) w ↔
      Form.addressLoad.admits w = true ∧ w.extractLsb' 0 5 = register.extractLsb' 0 5 ∧
      w.extractLsb' 29 2 = (target - instruction).extractLsb' 0 2 ∧
      w.extractLsb' 5 19 = (target - instruction).extractLsb' 2 19 := by
  rw [← extractLsb'_displacement target instruction (show 0 + 2 ≤ 32 by decide),
    ← extractLsb'_displacement target instruction (show 2 + 19 ≤ 32 by decide)]
  simp only [Carries, Instr.form, writerCallsOf, addressLoadCalls, registerSlot, dispLowSlot, dispHighSlot,
    List.forall_mem_cons, List.not_mem_nil, false_imp_iff, implies_true, and_true]

theorem carries_byteStore_iff {source base w : Word} :
    Carries (.byteStore source base) w ↔
      Form.byteStore.admits w = true ∧ w.extractLsb' 0 5 = source.extractLsb' 0 5 ∧
      w.extractLsb' 5 5 = base.extractLsb' 0 5 := by
  simp only [Carries, Instr.form, writerCallsOf, byteStoreCalls, registerSlot, baseSlot, List.forall_mem_cons,
    List.not_mem_nil, false_imp_iff, implies_true, and_true]

theorem carries_branch_iff {target instruction : Addr} {w : Word} :
    Carries (.branch target instruction) w ↔
      Form.branch.admits w = true ∧ w.extractLsb' 0 26 = (target - instruction).extractLsb' 2 26 := by
  rw [← extractLsb'_wordOffset_displacement]
  simp only [Carries, Instr.form, writerCallsOf, branchCalls, offsetSlot, List.forall_mem_singleton]

/-! The encoder (R62 to R65). -/

theorem admits_encode (i : Instr) : i.form.admits (encode i) = true := by
  rw [admits_iff]
  cases i with
  | moveImmediate register immediate => exact Laws.EncodeInForm.moveImmediate register immediate
  | addressLoad register target instruction => exact Laws.EncodeInForm.addressLoad register target instruction
  | byteStore source base => exact Laws.EncodeInForm.byteStore source base
  | branch target instruction => exact Laws.EncodeInForm.branch target instruction

/-- The format tables lay out the slices that the writer calls copy. -/
theorem carries_encode (i : Instr) : Carries i (encode i) := by
  have hform := admits_encode i
  cases i with
  | moveImmediate register immediate =>
    have himmediate : (encode (.moveImmediate register immediate)).extractLsb' 5 16 = immediate.extractLsb' 0 16 :=
      (BitVec.extractLsb'_append_eq_of_le (by decide)).trans BitVec.extractLsb'_append_eq_right
    exact carries_moveImmediate_iff.mpr ⟨hform, BitVec.extractLsb'_append_eq_right, himmediate⟩
  | addressLoad register target instruction =>
    have hlow : (encode (.addressLoad register target instruction)).extractLsb' 29 2 =
        (formatDisplacement target instruction).extractLsb' 0 2 :=
      (BitVec.extractLsb'_append_eq_of_le (by decide)).trans <|
        (BitVec.extractLsb'_append_eq_of_le (by decide)).trans <|
          (BitVec.extractLsb'_append_eq_of_le (by decide)).trans BitVec.extractLsb'_append_eq_right
    have hhigh : (encode (.addressLoad register target instruction)).extractLsb' 5 19 =
        (formatDisplacement target instruction).extractLsb' 2 19 :=
      (BitVec.extractLsb'_append_eq_of_le (by decide)).trans BitVec.extractLsb'_append_eq_right
    rw [extractLsb'_formatDisplacement _ _ (by decide)] at hlow hhigh
    exact carries_addressLoad_iff.mpr ⟨hform, BitVec.extractLsb'_append_eq_right, hlow, hhigh⟩
  | byteStore source base =>
    have hbase : (encode (.byteStore source base)).extractLsb' 5 5 = base.extractLsb' 0 5 :=
      (BitVec.extractLsb'_append_eq_of_le (by decide)).trans BitVec.extractLsb'_append_eq_right
    exact carries_byteStore_iff.mpr ⟨hform, BitVec.extractLsb'_append_eq_right, hbase⟩
  | branch target instruction =>
    have hoffset : (encode (.branch target instruction)).extractLsb' 0 26 =
        (formatDisplacement target instruction).extractLsb' 2 26 := BitVec.extractLsb'_append_eq_right
    rw [extractLsb'_formatDisplacement _ _ (by decide)] at hoffset
    exact carries_branch_iff.mpr ⟨hform, hoffset⟩

/-- The writer chains realise the format tables (R66). -/
theorem wordOf_eq_encode (i : Instr) : wordOf i = encode i := (carries_wordOf i).unique (carries_encode i)

/-! The decoder (R68), as the call it reads off a word under each form. -/

/-- The call that a word of form `f` names at address `a`. -/
def callAt (a : Addr) (w : Word) : Form → Instr
  | .moveImmediate => .moveImmediate (lowRegister w) (immediateField w)
  | .addressLoad => .addressLoad (lowRegister w) (a + (addressLoadDisplacement w).signExtend 64) a
  | .byteStore => .byteStore (lowRegister w) (baseRegisterField w)
  | .branch => .branch (a + (branchDisplacement w).signExtend 64) a

@[simp] theorem form_callAt (a : Addr) (w : Word) (f : Form) : (callAt a w f).form = f := by
  cases f <;> rfl

theorem decodeAt_of_admits {f : Form} {w : Word} (h : f.admits w = true) (a : Addr) :
    decodeAt a w = .ok (callAt a w f) := by
  rw [decodeAt, formOf_eq_some_iff.mpr h]
  cases f <;> rfl

/-- What decodes is the call read off the word under the form that admits it. -/
theorem decodeAt_eq_ok_iff {a : Addr} {w : Word} {i : Instr} :
    decodeAt a w = .ok i ↔ ∃ f : Form, f.admits w = true ∧ callAt a w f = i := by
  constructor
  · intro h
    obtain ⟨hform, -⟩ := decodeAt_cases h
    have hadmits := admits_of_formOf hform
    exact ⟨i.form, hadmits, Except.ok.inj ((decodeAt_of_admits hadmits a).symm.trans h)⟩
  · rintro ⟨f, hadmits, rfl⟩
    exact decodeAt_of_admits hadmits a

/-! What is decoded is in contract: each field is read back as a number that fits it (R205). -/

theorem toNat_setWidth_extractLsb'_lt {w v n : Nat} (x : BitVec w) (start : Nat) :
    ((x.extractLsb' start n).setWidth v).toNat < 2 ^ n :=
  (BitVec.toNat_setWidth v _ ▸ Nat.mod_le _ _).trans_lt (x.extractLsb' start n).isLt

theorem lowRegister_toNat_lt (w : Word) : (lowRegister w).toNat < 32 := toNat_setWidth_extractLsb'_lt w 0

theorem baseRegisterField_toNat_lt (w : Word) : (baseRegisterField w).toNat < 32 := toNat_setWidth_extractLsb'_lt w 5

theorem immediateField_toNat_lt (w : Word) : (immediateField w).toNat < 65536 := toNat_setWidth_extractLsb'_lt w 5

/-- The distance to a target read off a displacement is the displacement, as a signed number (R114, R144). -/
theorem distance_add_signExtend {n : Nat} (a : Addr) (d : BitVec n) (hn : n ≤ 64) :
    distance (a + d.signExtend 64) a = d.toInt := by
  rw [distance, add_sub_cancel_left, BitVec.toInt_signExtend_of_le hn]

/-- A branch displacement is four times the signed word offset (R144). -/
theorem branchDisplacement_toInt (w : Word) : (branchDisplacement w).toInt = 4 * (w.extractLsb' 0 26).toInt :=
  BitVec.toInt_append_zero

theorem wellFormed_callAt (a : Addr) (w : Word) (f : Form) : (callAt a w f).wellFormed = true := by
  cases f with
  | moveImmediate =>
    simp [callAt, Instr.wellFormed, lowRegister_toNat_lt, immediateField_toNat_lt]
  | addressLoad =>
    have hlo := BitVec.le_toInt (addressLoadDisplacement w)
    have hhi := BitVec.toInt_lt (x := addressLoadDisplacement w)
    have hfits : addressLoadDistanceFits (a + (addressLoadDisplacement w).signExtend 64) a = true := by
      rw [addressLoadDistanceFits_iff, distance_add_signExtend a _ (by decide)]
      exact ⟨hlo, hhi⟩
    simp [callAt, Instr.wellFormed, lowRegister_toNat_lt, hfits, -addressLoadDistanceFits_iff]
  | byteStore =>
    simp [callAt, Instr.wellFormed, lowRegister_toNat_lt, baseRegisterField_toNat_lt]
  | branch =>
    have hlo := BitVec.le_toInt (branchDisplacement w)
    have hhi := BitVec.toInt_lt (x := branchDisplacement w)
    have haligned : branchDistanceAligned (a + (branchDisplacement w).signExtend 64) a = true := by
      rw [branchDistanceAligned_iff, distance_add_signExtend a _ (by decide), branchDisplacement_toInt]
      exact dvd_mul_right _ _
    have hfits : branchDistanceFits (a + (branchDisplacement w).signExtend 64) a = true := by
      rw [branchDistanceFits_iff, distance_add_signExtend a _ (by decide)]
      exact ⟨hlo, hhi⟩
    simp [callAt, Instr.wellFormed, haligned, hfits, -branchDistanceAligned_iff, -branchDistanceFits_iff]

/-! A word carries the call that is decoded from it. -/

theorem carries_callAt {f : Form} {w : Word} (h : f.admits w = true) (a : Addr) : Carries (callAt a w f) w := by
  have hregister : w.extractLsb' 0 5 = (lowRegister w).extractLsb' 0 5 :=
    (extractLsb'_setWidth_self _ (by decide)).symm
  cases f with
  | moveImmediate =>
    have himmediate : w.extractLsb' 5 16 = (immediateField w).extractLsb' 0 16 :=
      (extractLsb'_setWidth_self _ (by decide)).symm
    exact carries_moveImmediate_iff.mpr ⟨h, hregister, himmediate⟩
  | addressLoad =>
    refine carries_addressLoad_iff.mpr ⟨h, hregister, ?low, ?high⟩
    case low =>
      rw [add_sub_cancel_left, extractLsb'_signExtend_of_le _ (by decide) (by decide)]
      exact BitVec.extractLsb'_append_eq_right.symm
    case high =>
      rw [add_sub_cancel_left, extractLsb'_signExtend_of_le _ (by decide) (by decide)]
      exact BitVec.extractLsb'_append_eq_left.symm
  | byteStore =>
    have hbase : w.extractLsb' 5 5 = (baseRegisterField w).extractLsb' 0 5 :=
      (extractLsb'_setWidth_self _ (by decide)).symm
    exact carries_byteStore_iff.mpr ⟨h, hregister, hbase⟩
  | branch =>
    refine carries_branch_iff.mpr ⟨h, ?offset⟩
    case offset =>
      rw [add_sub_cancel_left, extractLsb'_signExtend_of_le _ (by decide) (by decide)]
      exact BitVec.extractLsb'_append_eq_left.symm

/-! In contract, the call that a word carries is the one decoded from it, at the address it names (R168). -/

/-- An address-load word's displacement field is the low part of the difference of the addresses (R112). -/
theorem addressLoadDisplacement_of_carries {register w : Word} {target instruction : Addr}
    (h : Carries (.addressLoad register target instruction) w) :
    addressLoadDisplacement w = (target - instruction).extractLsb' 0 21 := by
  obtain ⟨-, -, hlow, hhigh⟩ := carries_addressLoad_iff.mp h
  rw [addressLoadDisplacement, hlow, hhigh]
  exact BitVec.extractLsb'_append_extractLsb'_eq_extractLsb' rfl

/-- For an aligned distance, a branch word's displacement is the low part of the difference of the addresses (R144). -/
theorem branchDisplacement_of_carries {w : Word} {target instruction : Addr}
    (h : Carries (.branch target instruction) w) (haligned : 4 ∣ distance target instruction) :
    branchDisplacement w = (target - instruction).extractLsb' 0 28 := by
  obtain ⟨-, hoffset⟩ := carries_branch_iff.mp h
  rw [branchDisplacement, hoffset, ← extractLsb'_eq_zero_of_dvd_toInt (n := 2) (by decide) haligned]
  exact BitVec.extractLsb'_append_extractLsb'_eq_extractLsb' rfl

theorem callAt_of_carries {i : Instr} {w : Word} {a : Addr} (h : Carries i w) (hwf : i.wellFormed = true)
    (ha : i.instructionAddress? = none ∨ i.instructionAddress? = some a) : callAt a w i.form = i := by
  cases i with
  | moveImmediate register immediate =>
    obtain ⟨-, hregister, himmediate⟩ := carries_moveImmediate_iff.mp h
    simp only [Instr.wellFormed, Bool.and_eq_true, registerFits_iff, immediateFits_iff] at hwf
    obtain ⟨hr, hv⟩ := hwf
    have hlow : lowRegister w = register := setWidth_extractLsb'_eq_of_lt hregister hr
    have hfield : immediateField w = immediate := setWidth_extractLsb'_eq_of_lt himmediate hv
    rw [Instr.form, callAt, hlow, hfield]
  | addressLoad register target instruction =>
    obtain ⟨-, hregister, -, -⟩ := carries_addressLoad_iff.mp h
    simp only [Instr.wellFormed, Bool.and_eq_true, registerFits_iff, addressLoadDistanceFits_iff, distance] at hwf
    obtain ⟨hr, hlo, hhi⟩ := hwf
    obtain rfl : instruction = a := by simpa [Instr.instructionAddress?] using ha
    have hlow : lowRegister w = register := setWidth_extractLsb'_eq_of_lt hregister hr
    rw [Instr.form, callAt, hlow, addressLoadDisplacement_of_carries h,
      signExtend_extractLsb'_of_toInt (by decide) (by omega) (by omega), add_sub_cancel]
  | byteStore source base =>
    obtain ⟨-, hsource, hbase⟩ := carries_byteStore_iff.mp h
    simp only [Instr.wellFormed, Bool.and_eq_true, registerFits_iff] at hwf
    obtain ⟨hs, hb⟩ := hwf
    have hlow : lowRegister w = source := setWidth_extractLsb'_eq_of_lt hsource hs
    have hfield : baseRegisterField w = base := setWidth_extractLsb'_eq_of_lt hbase hb
    rw [Instr.form, callAt, hlow, hfield]
  | branch target instruction =>
    simp only [Instr.wellFormed, Bool.and_eq_true, branchDistanceAligned_iff, branchDistanceFits_iff] at hwf
    obtain ⟨haligned, hlo, hhi⟩ := hwf
    rw [distance] at hlo hhi
    obtain rfl : instruction = a := by simpa [Instr.instructionAddress?] using ha
    rw [Instr.form, callAt, branchDisplacement_of_carries h haligned,
      signExtend_extractLsb'_of_toInt (by decide) (by omega) (by omega), add_sub_cancel]

/-! The record of answers. -/

/-- Each packer emits words of its own call's form (R60). -/
theorem form?_operation (i : Instr) : i.operation.form? = some i.form := by
  cases i <;> rfl

/-- Whatever its inputs, a call gets a sound answer: a packer's word is of its form, the writer's of none. -/
theorem answerSound_of_answerTo {c : Call} {a : Answer} (h : answerTo c = some a) : answerSound a = true := by
  cases c with
  | pack i =>
    obtain rfl := Option.some.inj h
    obtain ⟨hform, -⟩ := carries_wordOf i
    simpa only [answerSound, form?_operation] using hform
  | write src srcStart dstIn dstStart count =>
    obtain ⟨slot, -, rfl⟩ := Option.map_eq_some_iff.mp h
    rfl

/-! The statements. -/

/-- Settles O45: the encoding carries the instruction, and in contract what a word carries is what it decodes to. -/
theorem decodeInvertsEncode : Obligations.DecodeInvertsEncode := by
  intro i a hwf ha
  exact decodeAt_eq_ok_iff.mpr ⟨i.form, admits_encode i, callAt_of_carries (carries_encode i) hwf ha⟩

/-- Settles O51: a step adds at most the answer to the first pending call, which is sound. -/
theorem stepKeepsAnswersSound : Obligations.StepKeepsAnswersSound := by
  intro s t hs hstep
  obtain ⟨-, rfl⟩ | ⟨c, rest, a, -, ha, rfl⟩ := step_cases hstep
  case inl => exact hs
  case inr =>
    exact List.forall_mem_append.mpr ⟨hs, List.forall_mem_singleton.mpr (answerSound_of_answerTo ha)⟩

/-- Settles O30: the word a packer answers carries its call, and the template leaves the variable bits at 0. -/
theorem answeredWordIsTemplatePlusFields : Obligations.AnsweredWordIsTemplatePlusFields := by
  intro i s
  obtain ⟨hform, hfields⟩ := carries_wordOf i
  refine ⟨wordOf i, exec_eq_answered i s, hfields, fun k hk hfree => ?otherBits, ?templateZero⟩
  case otherBits =>
    rw [templateOf_eq_fixedBits]
    refine admits_iff_uncovered_bits.mp hform k hk fun slot hslot => ?_
    obtain ⟨c, hc, rfl⟩ := mem_slotsOf_iff.mp hslot
    exact hfree c hc
  case templateZero => rw [templateOf_eq_fixedBits, fixedBits_and_not_mask]

/-- Settles O32: a packer's word matches its row, and a matching word is the answer to the call decoded from it. -/
theorem packersReturnExactlyTheMatchingWords : Obligations.PackersReturnExactlyTheMatchingWords := by
  refine ⟨by decide, fun f w => ⟨fun h => ?matchingIsReturned, ?returnedMatches⟩⟩
  case matchingIsReturned =>
    have hword : wordOf (callAt 0 w f) = w := (carries_wordOf _).unique (carries_callAt h 0)
    exact ⟨callAt 0 w f, form_callAt 0 w f, fun s => by rw [exec_eq_answered, hword]⟩
  case returnedMatches =>
    rintro ⟨i, rfl, hexec⟩
    have hnext := (exec_eq_answered i State.reset).symm.trans (hexec State.reset)
    obtain ⟨-, rfl⟩ := State.answered_injective (Host.Outcome.next.inj hnext)
    obtain ⟨hform, -⟩ := carries_wordOf i
    exact hform

/-- Settles O34: two rows that one word matches agree on their common fixed bits; the witness bits lie in the masks. -/
theorem formsExcludeOneAnother : Obligations.FormsExcludeOneAnother := by
  refine ⟨fun w f g => eq_of_admits, fun w => ⟨?moveImmediate, ?addressLoad, ?byteStore, ?branch⟩⟩
  case moveImmediate => exact fun h => extractLsb'_of_admits h (by decide)
  case addressLoad => exact fun h => extractLsb'_of_admits h (by decide)
  case byteStore => exact fun h => extractLsb'_of_admits h (by decide)
  case branch => exact fun h => extractLsb'_of_admits h (by decide)

/-- Settles O44: the chain of writer calls and the tables give the one word that carries the call. -/
theorem packersRealiseTheFormatTables : Obligations.PackersRealiseTheFormatTables := by
  intro i s
  rw [exec_eq_answered, wordOf_eq_encode]

/-- Settles O46: a word carries the call decoded from it, and so does that call's encoding. -/
theorem encodeInvertsDecode : Obligations.EncodeInvertsDecode := by
  refine ⟨fun a w i h => ?roundTrip, fun a w => ⟨?decodes, ?notRefused⟩⟩
  case roundTrip =>
    obtain ⟨f, hadmits, rfl⟩ := decodeAt_eq_ok_iff.mp h
    exact ⟨wellFormed_callAt a w f, (carries_encode _).unique (carries_callAt hadmits a)⟩
  case decodes =>
    rintro ⟨i, h⟩
    obtain ⟨f, hadmits, -⟩ := decodeAt_eq_ok_iff.mp h
    exact ⟨f, hadmits⟩
  case notRefused =>
    rintro ⟨f, hadmits⟩
    exact ⟨callAt a w f, decodeAt_of_admits hadmits a⟩

/-- At address 0, which is the reading of a bare word (log entry 8), a well-formed call is read back whole. -/
theorem decode_encode {i : Instr} (hwf : i.wellFormed = true)
    (ha : i.instructionAddress? = none ∨ i.instructionAddress? = some 0) : decode (encode i) = .ok i :=
  decodeInvertsEncode i 0 hwf ha

/-- Settles O47: the four words are the encodings of their calls; the zero word matches no row (log entries 8, 9). -/
theorem exampleWordsDecode : Obligations.ExampleWordsDecode := by
  refine ⟨?moveImmediate, ?addressLoad, ?byteStore, ?branch, ?zeroWord⟩
  case moveImmediate => exact decode_encode (i := .moveImmediate 5#32 0x1234#32) (by decide) (by decide)
  case addressLoad => exact decode_encode (i := .addressLoad 0#32 8#64 0#64) (by decide) (by decide)
  case byteStore => exact decode_encode (i := .byteStore 1#32 2#32) (by decide) (by decide)
  case branch => exact decode_encode (i := .branch 0x10#64 0#64) (by decide) (by decide)
  case zeroWord => decide

end Sys2Proof.Machine

/-! PROOFS of the family 40_bitfield_writer.md: what the writer does to a bit of its field, to any other bit and to the
field as a slice (R80 to R91); the direct call; and the calls from which a step goes on (R84). -/

namespace Sys2Proof.Machine

open Sys2Proof.Safety

/-! One bit of the writer's result, in the field and outside it (R81). -/

theorem getLsbD_bfw_of_covers (src dstIn : Word) {slot : Slot} {k : Nat} (h : slot.Covers k) :
    (bfw src dstIn slot).getLsbD k = (dstIn.getLsbD k || src.getLsbD (slot.srcStart + (k - slot.dstStart))) := by
  rw [getLsbD_bfw _ _ _ _ h.lt, decide_eq_true h, Bool.true_and]

theorem getLsbD_bfw_of_not_covers (src dstIn : Word) {slot : Slot} {k : Nat} (hk : k < 32) (h : ¬ slot.Covers k) :
    (bfw src dstIn slot).getLsbD k = dstIn.getLsbD k := by
  rw [getLsbD_bfw _ _ _ _ hk, decide_eq_false h, Bool.false_and, Bool.or_false]

/-- A 1 bit of the destination is never cleared (R87). -/
theorem getLsbD_bfw_of_destination {dstIn : Word} {k : Nat} (src : Word) (slot : Slot)
    (h : dstIn.getLsbD k = true) : (bfw src dstIn slot).getLsbD k = true := by
  rw [bfw_eq_or, BitVec.getLsbD_or, h, Bool.true_or]

/-! The field as a slice of the result (R82, R83). -/

theorem Slot.covers_dstStart_add {slot : Slot} {j : Nat} (hj : j < slot.count) : slot.Covers (slot.dstStart + j) :=
  ⟨Nat.le_add_right _ _, Nat.add_lt_add_left hj _⟩

/-- Equal slices agree on each bit they take. -/
theorem getLsbD_eq_of_extractLsb'_eq {w v : Nat} {x : BitVec w} {y : BitVec v} {s s' n j : Nat}
    (h : x.extractLsb' s n = y.extractLsb' s' n) (hj : j < n) : x.getLsbD (s + j) = y.getLsbD (s' + j) := by
  have hbit := congrArg (BitVec.getLsbD · j) h
  simpa only [BitVec.getLsbD_extractLsb', hj, decide_true, Bool.true_and] using hbit

/-- The field ends as the OR of its old content and the source slice. -/
theorem extractLsb'_bfw (src dstIn : Word) (slot : Slot) :
    (bfw src dstIn slot).extractLsb' slot.dstStart slot.count =
      dstIn.extractLsb' slot.dstStart slot.count ||| src.extractLsb' slot.srcStart slot.count := by
  apply BitVec.eq_of_getLsbD_eq
  intro j hj
  simp only [BitVec.getLsbD_or, BitVec.getLsbD_extractLsb', hj, decide_true, Bool.true_and,
    getLsbD_bfw_of_covers src dstIn (Slot.covers_dstStart_add hj), Nat.add_sub_cancel_left]

/-- The writer reads its source only through the slice. -/
theorem bfw_congr_slice {src src' : Word} (dstIn : Word) {slot : Slot}
    (h : src.extractLsb' slot.srcStart slot.count = src'.extractLsb' slot.srcStart slot.count) :
    bfw src dstIn slot = bfw src' dstIn slot := by
  apply BitVec.eq_of_getLsbD_eq
  intro k hk
  by_cases hcov : slot.Covers k
  case pos =>
    have hoffset : k - slot.dstStart < slot.count := by omega
    rw [getLsbD_bfw_of_covers _ _ hcov, getLsbD_bfw_of_covers _ _ hcov, getLsbD_eq_of_extractLsb'_eq h hoffset]
  case neg => rw [getLsbD_bfw_of_not_covers _ _ hk hcov, getLsbD_bfw_of_not_covers _ _ hk hcov]

/-! The ends of the range of `count` (R85, R86). -/

theorem bfw_of_count_zero (src dstIn : Word) {slot : Slot} (h : slot.count = 0) : bfw src dstIn slot = dstIn := by
  rw [bfw, h, bfwLoop]

/-- A copy at full width has one position only. -/
theorem Slot.starts_eq_zero_of_full_width {slot : Slot} (h : slot.count = 32) :
    slot.srcStart = 0 ∧ slot.dstStart = 0 := by
  have hsrc := slot.srcBound
  have hdst := slot.dstBound
  omega

theorem bfw_zero_of_full_width (src : Word) {slot : Slot} (h : slot.count = 32) :
    bfw src 0#32 slot = src := by
  obtain ⟨hsrc, hdst⟩ := Slot.starts_eq_zero_of_full_width h
  have hslice := extractLsb'_bfw src 0#32 slot
  rw [h, hsrc, hdst] at hslice
  simpa only [BitVec.extractLsb'_eq_self, BitVec.zero_or] using hslice

/-! The other two forms of the writer's word (R80). -/

/-- The loop of the rule, over the offsets from 0 up to `n`. -/
theorem bfwLoop_eq_foldl (src dstIn : Word) (srcStart dstStart n : Nat) :
    bfwLoop src srcStart dstIn dstStart n =
      (List.range n).foldl
        (fun d i => if src.getLsbD (srcStart + i) then d ||| BitVec.twoPow 32 (dstStart + i) else d) dstIn := by
  induction n with
  | zero => rfl
  | succ n ih => rw [List.range_succ, List.foldl_concat, ← ih, bfwLoop, setBit, BitVec.twoPow_eq]

/-- `mask(count)` has its low `count` bits set. -/
theorem getLsbD_ofNat_two_pow_sub_one {count k : Nat} (hk : k < 32) :
    (BitVec.ofNat 32 (2 ^ count - 1)).getLsbD k = decide (k < count) := by
  rw [BitVec.getLsbD_ofNat, Nat.testBit_two_pow_sub_one, decide_eq_true hk, Bool.true_and]

/-- The mask and shift form: shifted into place, the masked slice has its bits where the field is. -/
theorem bfw_eq_mask_shift (src dstIn : Word) (slot : Slot) :
    bfw src dstIn slot =
      dstIn ||| (((src >>> slot.srcStart) &&& BitVec.ofNat 32 (2 ^ slot.count - 1)) <<< slot.dstStart) := by
  apply BitVec.eq_of_getLsbD_eq
  intro k hk
  rw [getLsbD_bfw _ _ _ _ hk, BitVec.getLsbD_or, BitVec.getLsbD_shiftLeft, BitVec.getLsbD_and,
    BitVec.getLsbD_ushiftRight, getLsbD_ofNat_two_pow_sub_one ((Nat.sub_le _ _).trans_lt hk)]
  have hfield : (slot.dstStart ≤ k ∧ k < slot.dstStart + slot.count) ↔
      ¬ k < slot.dstStart ∧ k - slot.dstStart < slot.count := by omega
  simp only [hfield, hk, decide_true, Bool.true_and, Bool.decide_and, decide_not, Bool.and_assoc, Bool.and_comm]

/-! The direct call (R84), and the writer calls that packers make (R66). -/

theorem answerTo_write_of_bounds {srcStart dstStart count : Nat} (src dstIn : Word) (hs : srcStart + count ≤ 32)
    (hd : dstStart + count ≤ 32) :
    answerTo (.write src srcStart dstIn dstStart count) =
      some ⟨.bfw, bfw src dstIn ⟨srcStart, dstStart, count, hs, hd⟩⟩ := by
  rw [answerTo, slotOf?_of_bounds hs hd, Option.map_some]

theorem answerTo_write_of_not_bounds {srcStart dstStart count : Nat} (src dstIn : Word)
    (h : ¬ (srcStart + count ≤ 32 ∧ dstStart + count ≤ 32)) :
    answerTo (.write src srcStart dstIn dstStart count) = none := by
  rw [answerTo, slotOf?_of_not_bounds h, Option.map_none]

theorem execWriter_of_bounds {srcStart dstStart count : Nat} (src dstIn : Word) (hs : srcStart + count ≤ 32)
    (hd : dstStart + count ≤ 32) (s : State) :
    execWriter src srcStart dstIn dstStart count s =
      .next (s.answered .bfw (bfw src dstIn ⟨srcStart, dstStart, count, hs, hd⟩)) := by
  simp only [execWriter, slotOf?_of_bounds hs hd]

theorem slotsOf_count_pos {f : Form} {slot : Slot} (h : slot ∈ slotsOf f) : 1 ≤ slot.count := by
  revert slot
  cases f <;> decide

/-- No packer makes a writer call of count 0 (R85). -/
theorem writerCallsOf_count_pos {i : Instr} {c : WriterCall} (hc : c ∈ writerCallsOf i) : 1 ≤ c.slot.count :=
  slotsOf_count_pos (mem_slotsOf_iff.mpr ⟨c, hc, rfl⟩)

/-- The calls a packer has made before a writer call leave that call's field at the template's 0 (R82). -/
theorem extractLsb'_packWith_before {i : Instr} {before after : List WriterCall} {c : WriterCall}
    (h : writerCallsOf i = before ++ c :: after) :
    (packWith (templateOf i) before).extractLsb' c.slot.dstStart c.slot.count = 0#c.slot.count := by
  have hc : c ∈ writerCallsOf i := h ▸ List.mem_append_right before List.mem_cons_self
  have hdisjoint : ∀ b ∈ before, b.slot.Disjoint c.slot := by
    have hpairs := writerCallsOf_pairwise_disjoint i
    rw [h, List.pairwise_append] at hpairs
    obtain ⟨-, -, hacross⟩ := hpairs
    exact fun b hb => hacross b hb c List.mem_cons_self
  apply BitVec.eq_of_getLsbD_eq
  intro j hj
  have hcov := Slot.covers_dstStart_add hj
  rw [BitVec.getLsbD_extractLsb',
    getLsbD_packWith_of_uncovered _ hcov.lt fun b hb => (hdisjoint b hb).symm.not_covers hcov,
    templateOf_eq_fixedBits, getLsbD_fixedBits_of_covered (mem_slotsOf_iff.mpr ⟨c, hc, rfl⟩) hcov, Bool.and_false,
    BitVec.getLsbD_zero]

/-! The calls from which a step goes on (R84; log entries 1, 4 and 6). -/

theorem callDefined_iff {c : Call} :
    callDefined c = true ↔
      ∀ src srcStart dstIn dstStart count, c = .write src srcStart dstIn dstStart count →
        srcStart + count ≤ 32 ∧ dstStart + count ≤ 32 := by
  cases c with
  | pack i => exact iff_of_true rfl fun _ _ _ _ _ h => Call.noConfusion h
  | write src srcStart dstIn dstStart count =>
    rw [callDefined, Bool.and_eq_true, decide_eq_true_iff, decide_eq_true_iff]
    constructor
    · intro h _ _ _ _ _ hc
      cases hc
      exact h
    · exact fun h => h src srcStart dstIn dstStart count rfl

/-- With a call pending, a step goes on exactly when that call has a meaning. -/
theorem exists_step_iff_callDefined {s : State} {c : Call} {rest : List Call} (h : s.calls = c :: rest) :
    (∃ t, step s = .next t) ↔ callDefined c = true := by
  rw [step_of_calls h, ← answerTo_isSome]
  cases answerTo c with
  | none => simp
  | some a => simp

/-- A step from defined calls goes on, be it the idle one. -/
theorem exists_step_of_callsDefined {s : State} (hs : CallsDefined s) : ∃ t, step s = .next t := by
  cases hc : s.calls with
  | nil => exact ⟨s, step_of_no_calls hc⟩
  | cons c rest => exact (exists_step_iff_callDefined hc).mpr (hs c (hc ▸ List.mem_cons_self))

/-- The call that a step served was defined, so all calls were defined before it when the remaining ones are. -/
theorem callsDefined_iff_of_step {s t : State} (h : step s = .next t) : CallsDefined s ↔ CallsDefined t := by
  have ht := step_calls h
  cases hc : s.calls with
  | nil =>
    rw [hc, List.tail_nil] at ht
    exact iff_of_true (callsDefined_of_no_calls hc) (callsDefined_of_no_calls ht)
  | cons c rest =>
    rw [hc, List.tail_cons] at ht
    rw [CallsDefined, CallsDefined, hc, ht, List.forall_mem_cons]
    exact and_iff_right ((exists_step_iff_callDefined hc).mp ⟨t, h⟩)

/-! The statements. -/

/-- Settles O1: the word is the writer's own, whose loop, bits and mask-shift form are each a lemma above. -/
theorem writerCallAnswersItsThreeForms : Obligations.WriterCallAnswersItsThreeForms := by
  refine ⟨fun s rest src dstIn srcStart dstStart count hcalls hs hd => ?threeForms, fun s => ?workedExample⟩
  case threeForms =>
    refine ⟨bfw src dstIn ⟨srcStart, dstStart, count, hs, hd⟩, ?answer, bfwLoop_eq_foldl _ _ _ _ _, fun k hk => ?bits,
      bfw_eq_mask_shift _ _ _⟩
    case answer => rw [step_of_calls hcalls, answerTo_write_of_bounds src dstIn hs hd]
    case bits =>
      split
      case isTrue hcov => exact getLsbD_bfw_of_covers src dstIn hcov
      case isFalse hcov => exact getLsbD_bfw_of_not_covers src dstIn hk hcov
  case workedExample =>
    have hword : bfw 0x00001234#32 0x52800005#32 immediateSlot = 0x52824685#32 := by decide
    rw [← hword]
    exact execWriter_of_bounds _ _ immediateSlot.srcBound immediateSlot.dstBound s

/-- Settles O3: a bit in the field is ORed with its source bit, and any other is left alone. -/
theorem writerOnlySetsBitsOfItsField : Obligations.WriterOnlySetsBitsOfItsField := by
  intro src dstIn slot k hk
  refine ⟨getLsbD_bfw_of_destination src slot, getLsbD_bfw_of_not_covers src dstIn hk, fun hlo hhi hsrc => ?zeroSource⟩
  case zeroSource => rw [getLsbD_bfw_of_covers src dstIn ⟨hlo, hhi⟩, hsrc, Bool.or_false]

/-- Settles O4: the field is ORed with the slice, which copies into 0; a packer's fields are disjoint and its template
is 0 in each. -/
theorem writerCopiesIntoZeroFields : Obligations.WriterCopiesIntoZeroFields := by
  refine ⟨fun src dstIn slot _ => ⟨fun hzero => ?copy, extractLsb'_bfw src dstIn slot⟩,
    fun i before after c h => ⟨?countPositive, extractLsb'_packWith_before h⟩⟩
  case copy => rw [extractLsb'_bfw, hzero, BitVec.zero_or]
  case countPositive => exact writerCallsOf_count_pos (h ▸ List.mem_append_right before List.mem_cons_self)

/-- Settles O5: outside the field no source bit is read, and inside it only those of the slice. -/
theorem writerReadsOnlyItsSlice : Obligations.WriterReadsOnlyItsSlice :=
  fun _ _ dstIn _ h => bfw_congr_slice dstIn h

/-- Settles O7: at full width the field is the whole word, and it receives the whole source. -/
theorem writerFullWidthCopyIsTheSource : Obligations.WriterFullWidthCopyIsTheSource := by
  refine ⟨fun slot h => ?slotAtFullWidth, fun src s => ?directCall⟩
  case slotAtFullWidth =>
    obtain ⟨hsrc, hdst⟩ := Slot.starts_eq_zero_of_full_width h
    exact ⟨hsrc, hdst, fun src => bfw_zero_of_full_width src h⟩
  case directCall =>
    have hbound : 0 + 32 ≤ 32 := by decide
    rw [execWriter_of_bounds src _ hbound hbound, bfw_zero_of_full_width src rfl]

/-- Settles O8: the result is the destination ORed with something, which loses none of its bits. -/
theorem writerNeverDecreasesDestination : Obligations.WriterNeverDecreasesDestination := by
  intro src dstIn slot
  refine ⟨?unsignedOrder, BitVec.eq_of_getLsbD_eq fun k _ => ?keepsBit⟩
  case unsignedOrder =>
    rw [bfw_eq_or, BitVec.toNat_or]
    exact Nat.left_le_or
  case keepsBit =>
    rw [BitVec.getLsbD_and, Bool.and_eq_right_iff_imp]
    exact getLsbD_bfw_of_destination src slot

/-- Settles O9: each of the two calls ORs its own source bit into the bit that both cover. -/
theorem writerOverlapIsOr : Obligations.WriterOverlapIsOr := by
  intro a b dstIn p q k _ hplo hphi hqlo hqhi
  rw [getLsbD_bfw_of_covers b _ ⟨hqlo, hqhi⟩, getLsbD_bfw_of_covers a _ ⟨hplo, hphi⟩]

/-- Settles O10: the value ORed in does not depend on the destination, and ORing it in again adds nothing. -/
theorem writerIsIdempotent : Obligations.WriterIsIdempotent := by
  intro src dstIn slot
  rw [bfw_eq_or src (bfw src dstIn slot), bfw_eq_or src dstIn, BitVec.or_assoc, BitVec.or_self]

/-- Settles O11: the values that two calls OR in do not depend on each other. -/
theorem writerCallsCommute : Obligations.WriterCallsCommute := by
  intro a b dstIn p q
  calc bfw a (bfw b dstIn q) p
      = dstIn ||| bfw b 0 q ||| bfw a 0 p := by rw [bfw_eq_or a, bfw_eq_or b dstIn]
    _ = dstIn ||| bfw a 0 p ||| bfw b 0 q := by rw [BitVec.or_assoc, BitVec.or_comm (bfw b 0 q), ← BitVec.or_assoc]
    _ = bfw b (bfw a dstIn p) q := by rw [bfw_eq_or b (bfw a dstIn p), bfw_eq_or a dstIn]

/-- Settles O52: a step goes on when idle or when the first call has a meaning, and leaves the other calls pending. -/
theorem stepKeepsCallsDefined : Obligations.StepKeepsCallsDefined := by
  refine ⟨fun s => ⟨fun hs => ?goesOn, ?cameFromDefined⟩, fun s c rest hcalls => ?firstCallInBounds⟩
  case goesOn =>
    obtain ⟨t, h⟩ := exists_step_of_callsDefined hs
    exact ⟨t, h, (callsDefined_iff_of_step h).mp hs, step_calls h, step_answers h⟩
  case cameFromDefined =>
    rintro ⟨t, h, ht, -, -⟩
    exact (callsDefined_iff_of_step h).mpr ht
  case firstCallInBounds => exact (exists_step_iff_callDefined hcalls).trans callDefined_iff

/-- Settles O2: the call has no answer (D5), and a packer's positions carry the proofs of their bounds. -/
theorem writerCallOutsideBoundsIsRefused : Obligations.WriterCallOutsideBoundsIsRefused := by
  refine ⟨fun s rest src dstIn srcStart dstStart count hcalls h => ?refused, fun _ c _ => ?packerCall⟩
  case refused => rw [step_of_calls hcalls, answerTo_write_of_not_bounds src dstIn h]
  case packerCall => exact ⟨c.slot.srcBound, c.slot.dstBound⟩

/-- Settles O6: the loop makes no turn, and every field of a packer has a bit. -/
theorem writerWithCountZeroReturnsDestination : Obligations.WriterWithCountZeroReturnsDestination := by
  refine ⟨fun src dstIn srcStart dstStart s hs hd => ?destination, fun i c hc => ?packerCall⟩
  case destination => rw [execWriter_of_bounds src dstIn hs hd, bfw_of_count_zero src dstIn rfl]
  case packerCall => exact Nat.one_le_iff_ne_zero.mp (writerCallsOf_count_pos hc)

end Sys2Proof.Machine

/-! PROOFS of the family 41_move_immediate.md: a writer call into a zero field as an addition of the slice shifted into
place (R82, R170), and the move-immediate word as its template, register field and immediate field (R100 to R103). -/

namespace Sys2Proof.Machine

/-! What a writer call ORs in, and when that OR is an addition. -/

/-- The value ORed in is the source slice, alone on a word and shifted to the field. -/
theorem bfw_zero_eq_shift (src : Word) (slot : Slot) :
    bfw src 0 slot = (src.extractLsb' slot.srcStart slot.count).setWidth 32 <<< slot.dstStart := by
  have hslice : (src >>> slot.srcStart) &&& BitVec.ofNat 32 (2 ^ slot.count - 1) =
      (src.extractLsb' slot.srcStart slot.count).setWidth 32 := by
    apply BitVec.eq_of_getLsbD_eq
    intro k hk
    rw [BitVec.getLsbD_and, BitVec.getLsbD_ushiftRight, getLsbD_ofNat_two_pow_sub_one hk, BitVec.getLsbD_setWidth,
      BitVec.getLsbD_extractLsb', decide_eq_true hk, Bool.true_and, Bool.and_comm]
  rw [bfw_eq_mask_shift, hslice]
  exact BitVec.zero_or

/-- Shifted to its field, a slice loses no bit. -/
theorem toNat_bfw_zero (src : Word) (slot : Slot) :
    (bfw src 0 slot).toNat = (src.extractLsb' slot.srcStart slot.count).toNat * 2 ^ slot.dstStart := by
  have hslice := (src.extractLsb' slot.srcStart slot.count).isLt
  have hfits : (src.extractLsb' slot.srcStart slot.count).toNat * 2 ^ slot.dstStart < 2 ^ 32 :=
    calc (src.extractLsb' slot.srcStart slot.count).toNat * 2 ^ slot.dstStart
        < 2 ^ slot.count * 2 ^ slot.dstStart := Nat.mul_lt_mul_of_pos_right hslice (Nat.two_pow_pos _)
      _ = 2 ^ (slot.dstStart + slot.count) := by rw [Nat.add_comm, Nat.pow_add]
      _ ≤ 2 ^ 32 := Nat.pow_le_pow_right Nat.two_pos slot.dstBound
  have hcount : 2 ^ slot.count ≤ 2 ^ 32 :=
    Nat.pow_le_pow_right Nat.two_pos ((Nat.le_add_left _ _).trans slot.dstBound)
  rw [bfw_zero_eq_shift, BitVec.toNat_shiftLeft, BitVec.toNat_setWidth, Nat.mod_eq_of_lt (hslice.trans_le hcount),
    Nat.shiftLeft_eq, Nat.mod_eq_of_lt hfits]

/-- A destination whose field is zero shares no 1 bit with what is ORed in. -/
theorem and_bfw_zero_of_zero_field {dstIn : Word} {slot : Slot} (src : Word)
    (h : dstIn.extractLsb' slot.dstStart slot.count = 0#slot.count) : dstIn &&& bfw src 0 slot = 0#32 := by
  apply BitVec.eq_of_getLsbD_eq
  intro k hk
  rw [BitVec.getLsbD_and, BitVec.getLsbD_zero]
  by_cases hcov : slot.Covers k
  case pos =>
    have hoffset : k - slot.dstStart < slot.count := by omega
    have hbit := congrArg (BitVec.getLsbD · (k - slot.dstStart)) h
    simp only [BitVec.getLsbD_extractLsb', hoffset, decide_true, Bool.true_and, Nat.add_sub_cancel' hcov.1,
      BitVec.getLsbD_zero] at hbit
    rw [hbit, Bool.false_and]
  case neg => rw [getLsbD_bfw_of_not_covers _ _ hk hcov, BitVec.ofNat_eq_ofNat, BitVec.getLsbD_zero, Bool.and_false]

/-- Into a zero field the writer adds the slice (R170). -/
theorem bfw_eq_add_of_zero_field {dstIn : Word} {slot : Slot} (src : Word)
    (h : dstIn.extractLsb' slot.dstStart slot.count = 0#slot.count) :
    bfw src dstIn slot = dstIn + bfw src 0 slot := by
  rw [bfw_eq_or, BitVec.add_eq_or_of_and_eq_zero _ _ (and_bfw_zero_of_zero_field src h)]

/-- The addition into a zero field carries nothing out of the word. -/
theorem toNat_bfw_of_zero_field {dstIn : Word} {slot : Slot} (src : Word)
    (h : dstIn.extractLsb' slot.dstStart slot.count = 0#slot.count) :
    (bfw src dstIn slot).toNat =
      dstIn.toNat + (src.extractLsb' slot.srcStart slot.count).toNat * 2 ^ slot.dstStart := by
  rw [bfw_eq_add_of_zero_field src h, BitVec.toNat_add_of_and_eq_zero (and_bfw_zero_of_zero_field src h),
    toNat_bfw_zero]

/-! Slices of an operand in and out of contract (R205). -/

/-- An operand that fits its field is its own low slice. -/
theorem toNat_extractLsb'_of_lt {w n : Nat} {v : BitVec w} (h : v.toNat < 2 ^ n) :
    (v.extractLsb' 0 n).toNat = v.toNat := by
  rw [BitVec.extractLsb'_toNat, Nat.shiftRight_zero, Nat.mod_eq_of_lt h]

/-- A mask that has every bit of a slice leaves the slice alone. -/
theorem extractLsb'_and_of_allOnes {w start n : Nat} {mask : BitVec w} (v : BitVec w)
    (h : mask.extractLsb' start n = BitVec.allOnes n) : (v &&& mask).extractLsb' start n = v.extractLsb' start n := by
  rw [BitVec.extractLsb'_and, h, BitVec.and_allOnes]

theorem wellFormed_moveImmediate_iff {register immediate : Word} :
    (Instr.moveImmediate register immediate).wellFormed = true ↔ register.toNat ≤ 31 ∧ immediate.toNat ≤ 0xFFFF := by
  rw [Instr.wellFormed, Bool.and_eq_true, registerFits_iff, immediateFits_iff]
  omega

/-! The move-immediate word (R100). -/

/-- The two writer calls on the template. -/
theorem packMoveImmediate_eq_bfw (register immediate : Word) :
    packMoveImmediate register immediate =
      bfw immediate (bfw register moveImmediateTemplate registerSlot) immediateSlot := by
  rw [packMoveImmediate, moveImmediateCalls, packWith_cons, packWith_cons, packWith_nil]

/-- The machine answers a move-immediate call with its packer's word. -/
theorem exec_moveImmediate (register immediate : Word) (s : State) :
    exec (.moveImmediate register immediate) s =
      .next (s.answered .encMoveImmediate (packMoveImmediate register immediate)) :=
  exec_eq_answered _ s

theorem carries_packMoveImmediate (register immediate : Word) :
    Carries (.moveImmediate register immediate) (packMoveImmediate register immediate) :=
  carries_wordOf _

/-- The opcode bits are the template's, whatever the operands. -/
theorem opcode_packMoveImmediate (register immediate : Word) :
    (packMoveImmediate register immediate).extractLsb' 21 11 = 0b01010010100#11 := by
  obtain ⟨hform, -, -⟩ := carries_moveImmediate_iff.mp (carries_packMoveImmediate register immediate)
  exact extractLsb'_of_admits hform (by decide)

theorem registerField_packMoveImmediate (register immediate : Word) :
    (packMoveImmediate register immediate).extractLsb' 0 5 = register.extractLsb' 0 5 := by
  obtain ⟨-, hregister, -⟩ := carries_moveImmediate_iff.mp (carries_packMoveImmediate register immediate)
  exact hregister

theorem immediateField_packMoveImmediate (register immediate : Word) :
    (packMoveImmediate register immediate).extractLsb' 5 16 = immediate.extractLsb' 0 16 := by
  obtain ⟨-, -, himmediate⟩ := carries_moveImmediate_iff.mp (carries_packMoveImmediate register immediate)
  exact himmediate

/-- The register call meets the template's zero field. -/
theorem registerField_moveImmediateTemplate :
    moveImmediateTemplate.extractLsb' registerSlot.dstStart registerSlot.count = 0#registerSlot.count := by decide

/-- The immediate call meets a zero field, which the register call before it has not touched. -/
theorem immediateField_before_moveImmediate (register : Word) :
    (bfw register moveImmediateTemplate registerSlot).extractLsb' immediateSlot.dstStart immediateSlot.count =
      0#immediateSlot.count :=
  extractLsb'_packWith_before (i := .moveImmediate register 0) (before := [⟨register, registerSlot⟩])
    (c := ⟨0, immediateSlot⟩) (after := []) rfl

/-- What the register call ORs in: its field stands at bit 0. -/
theorem bfw_zero_registerSlot (register : Word) :
    bfw register 0 registerSlot = (register.extractLsb' 0 5).setWidth 32 :=
  (bfw_zero_eq_shift register registerSlot).trans (BitVec.shiftLeft_zero _)

/-- What the immediate call ORs in. -/
theorem bfw_zero_immediateSlot (immediate : Word) :
    bfw immediate 0 immediateSlot = (immediate.extractLsb' 0 16).setWidth 32 <<< 5 :=
  bfw_zero_eq_shift immediate immediateSlot

theorem packMoveImmediate_eq_or (register immediate : Word) :
    packMoveImmediate register immediate =
      moveImmediateTemplate ||| (register.extractLsb' 0 5).setWidth 32 |||
        (immediate.extractLsb' 0 16).setWidth 32 <<< 5 := by
  rw [← bfw_zero_registerSlot, ← bfw_zero_immediateSlot, packMoveImmediate_eq_bfw, bfw_eq_or immediate,
    bfw_eq_or register]

theorem packMoveImmediate_eq_add (register immediate : Word) :
    packMoveImmediate register immediate =
      moveImmediateTemplate + (register.extractLsb' 0 5).setWidth 32 +
        (immediate.extractLsb' 0 16).setWidth 32 <<< 5 := by
  rw [← bfw_zero_registerSlot, ← bfw_zero_immediateSlot, packMoveImmediate_eq_bfw,
    bfw_eq_add_of_zero_field immediate (immediateField_before_moveImmediate register),
    bfw_eq_add_of_zero_field register registerField_moveImmediateTemplate]

/-- The closed form as integers: the three summands share no bit, so nothing carries. -/
theorem toNat_packMoveImmediate (register immediate : Word) :
    (packMoveImmediate register immediate).toNat =
      0x52800000 + (register.extractLsb' 0 5).toNat + 32 * (immediate.extractLsb' 0 16).toNat := by
  have hregister : (bfw register moveImmediateTemplate registerSlot).toNat =
      0x52800000 + (register.extractLsb' 0 5).toNat * 1 :=
    toNat_bfw_of_zero_field register registerField_moveImmediateTemplate
  have himmediate : (packMoveImmediate register immediate).toNat =
      (bfw register moveImmediateTemplate registerSlot).toNat + (immediate.extractLsb' 0 16).toNat * 32 :=
    toNat_bfw_of_zero_field immediate (immediateField_before_moveImmediate register)
  rw [himmediate, hregister, Nat.mul_one, Nat.mul_comm]

/-- Operands that agree on the two slices give the same word: no other bit is read (R83). -/
theorem packMoveImmediate_congr {register register' immediate immediate' : Word}
    (hregister : register.extractLsb' 0 5 = register'.extractLsb' 0 5)
    (himmediate : immediate.extractLsb' 0 16 = immediate'.extractLsb' 0 16) :
    packMoveImmediate register immediate = packMoveImmediate register' immediate' := by
  rw [packMoveImmediate_eq_or, packMoveImmediate_eq_or, hregister, himmediate]

/-! The statements. -/

/-- Settles O12: the word is the writer chain; each call ORs its shifted slice into a zero field, which also adds it. -/
theorem moveImmediateAnswersClosedForm : Obligations.MoveImmediateAnswersClosedForm := by
  refine ⟨fun register immediate s => ?closedForm, fun s => ?workedExample⟩
  case closedForm =>
    exact ⟨packMoveImmediate register immediate, exec_moveImmediate register immediate s,
      packMoveImmediate_eq_bfw register immediate, packMoveImmediate_eq_or register immediate,
      packMoveImmediate_eq_add register immediate, opcode_packMoveImmediate register immediate,
      immediateField_packMoveImmediate register immediate, registerField_packMoveImmediate register immediate⟩
  case workedExample =>
    have hword : packMoveImmediate 5#32 0x1234#32 = 0x52824685#32 := by decide
    rw [exec_moveImmediate, hword]

/-- Settles O13: each operand fits its field, so its slice is the operand itself, in the sum and in the word read back. -/
theorem moveImmediateInContractReadsBack : Obligations.MoveImmediateInContractReadsBack := by
  intro register immediate s hr hv
  have hregister : (register.extractLsb' 0 5).toNat = register.toNat := toNat_extractLsb'_of_lt (Nat.lt_succ_of_le hr)
  have himmediate : (immediate.extractLsb' 0 16).toNat = immediate.toNat :=
    toNat_extractLsb'_of_lt (Nat.lt_succ_of_le hv)
  refine ⟨packMoveImmediate register immediate, exec_moveImmediate register immediate s, ?sum, ?register, ?immediate⟩
  case sum => rw [toNat_packMoveImmediate, hregister, himmediate]
  case register => rw [registerField_packMoveImmediate, hregister]
  case immediate => rw [immediateField_packMoveImmediate, himmediate]

/-- Settles O14: the masks keep the two slices the word is made of; outside the contract the policy `refuse` answers
nothing. -/
theorem moveImmediateOutOfContractTruncates : Obligations.MoveImmediateOutOfContractTruncates := by
  intro register immediate s hout
  refine ⟨?truncated, ⟨packMoveImmediate register immediate, exec_moveImmediate register immediate s,
    opcode_packMoveImmediate register immediate⟩, ?refused⟩
  case truncated =>
    have hregister : (register &&& 0x1F#32).extractLsb' 0 5 = register.extractLsb' 0 5 :=
      extractLsb'_and_of_allOnes register (by decide)
    have himmediate : (immediate &&& 0xFFFF#32).extractLsb' 0 16 = immediate.extractLsb' 0 16 :=
      extractLsb'_and_of_allOnes immediate (by decide)
    rw [exec_moveImmediate, exec_moveImmediate, packMoveImmediate_congr hregister himmediate]
  case refused =>
    exact execUnder_refuse_of_not_wellFormed (Bool.eq_false_iff.mpr (mt wellFormed_moveImmediate_iff.mp hout)) s

end Sys2Proof.Machine

/-! PROOFS of the family 42_address_load.md: the low slice of a difference of addresses as a number, signed and
unsigned, and the address-load word as its template, register field and two displacement fields (R110 to R116). -/

namespace Sys2Proof.Machine

/-! The low slice of a vector as a number (R114, R115). -/

/-- Truncation wraps the signed reading into the signed range of the slice. -/
theorem toInt_extractLsb'_zero {v n : Nat} (d : BitVec v) (hn : n ≤ v) :
    (d.extractLsb' 0 n).toInt = d.toInt.bmod (2 ^ n) := by
  rw [BitVec.toInt_extractLsb', Nat.shiftRight_zero, BitVec.toInt_eq_toNat_bmod d,
    Int.bmod_bmod_of_dvd (Nat.pow_dvd_pow 2 hn)]

/-- The two readings of a vector agree modulo its range. -/
theorem toInt_emod_two_pow {n : Nat} (x : BitVec n) : x.toInt % (2 ^ n : Nat) = x.toNat := by
  rw [BitVec.toInt_eq_toNat_bmod, Int.bmod_emod, ← Int.natCast_emod, Nat.mod_eq_of_lt x.isLt]

/-- Truncation takes the signed reading modulo the unsigned range of the slice. -/
theorem toNat_extractLsb'_zero_eq_toInt_emod {v n : Nat} (d : BitVec v) (hn : n ≤ v) :
    ((d.extractLsb' 0 n).toNat : Int) = d.toInt % (2 ^ n : Nat) := by
  rw [← toInt_emod_two_pow, toInt_extractLsb'_zero d hn, Int.bmod_emod]

/-- Vectors that agree modulo a power of two have the same low slice. -/
theorem extractLsb'_zero_eq_of_toNat_mod_eq {w v n : Nat} {x : BitVec w} {y : BitVec v}
    (h : x.toNat % 2 ^ n = y.toNat % 2 ^ n) : x.extractLsb' 0 n = y.extractLsb' 0 n := by
  apply BitVec.eq_of_toNat_eq
  rw [BitVec.extractLsb'_toNat, BitVec.extractLsb'_toNat, Nat.shiftRight_zero, Nat.shiftRight_zero, h]

/-- Equal low slices have equal slices within. -/
theorem extractLsb'_eq_of_low_slice_eq {w v n start len : Nat} {x : BitVec w} {y : BitVec v}
    (h : x.extractLsb' 0 n = y.extractLsb' 0 n) (hle : start + len ≤ n) :
    x.extractLsb' start len = y.extractLsb' start len := by
  apply extractLsb'_congr
  intro k hk
  have hbit := getLsbD_eq_of_extractLsb'_eq h (show start + k < n by omega)
  rwa [Nat.zero_add] at hbit

/-! The displacement and the contract (R111, R205). -/

/-- The wrapped and truncated difference, as a number. -/
theorem toNat_displacement (target instruction : Addr) :
    (displacement target instruction).toNat = (target.toNat + (2 ^ 64 - instruction.toNat)) % 2 ^ 64 % 2 ^ 32 := by
  rw [displacement, BitVec.toNat_setWidth, BitVec.toNat_sub, Nat.add_comm]

theorem wellFormed_addressLoad_iff {register : Word} {target instruction : Addr} :
    (Instr.addressLoad register target instruction).wellFormed = true ↔
      register.toNat ≤ 31 ∧ -1048576 ≤ distance target instruction ∧ distance target instruction < 1048576 := by
  rw [Instr.wellFormed, Bool.and_eq_true, registerFits_iff, addressLoadDistanceFits_iff, Nat.lt_succ_iff]

/-! The address-load word (R110). -/

/-- The three writer calls on the template. -/
theorem packAddressLoad_eq_bfw (register : Word) (target instruction : Addr) :
    packAddressLoad register target instruction =
      bfw (displacement target instruction) (bfw (displacement target instruction)
        (bfw register addressLoadTemplate registerSlot) dispLowSlot) dispHighSlot := by
  rw [packAddressLoad, addressLoadCalls, packWith_cons, packWith_cons, packWith_cons, packWith_nil]

/-- The machine answers an address-load call with its packer's word. -/
theorem exec_addressLoad (register : Word) (target instruction : Addr) (s : State) :
    exec (.addressLoad register target instruction) s =
      .next (s.answered .encAddressLoad (packAddressLoad register target instruction)) :=
  exec_eq_answered _ s

theorem carries_packAddressLoad (register : Word) (target instruction : Addr) :
    Carries (.addressLoad register target instruction) (packAddressLoad register target instruction) :=
  carries_wordOf _

theorem admits_packAddressLoad (register : Word) (target instruction : Addr) :
    Form.addressLoad.admits (packAddressLoad register target instruction) = true := by
  obtain ⟨hform, -⟩ := carries_packAddressLoad register target instruction
  exact hform

theorem registerField_packAddressLoad (register : Word) (target instruction : Addr) :
    (packAddressLoad register target instruction).extractLsb' 0 5 = register.extractLsb' 0 5 := by
  obtain ⟨-, hregister, -, -⟩ := carries_addressLoad_iff.mp (carries_packAddressLoad register target instruction)
  exact hregister

theorem dispLowField_packAddressLoad (register : Word) (target instruction : Addr) :
    (packAddressLoad register target instruction).extractLsb' 29 2 =
      (displacement target instruction).extractLsb' 0 2 := by
  obtain ⟨-, -, hlow, -⟩ := carries_addressLoad_iff.mp (carries_packAddressLoad register target instruction)
  rw [hlow, extractLsb'_displacement _ _ (by decide)]

theorem dispHighField_packAddressLoad (register : Word) (target instruction : Addr) :
    (packAddressLoad register target instruction).extractLsb' 5 19 =
      (displacement target instruction).extractLsb' 2 19 := by
  obtain ⟨-, -, -, hhigh⟩ := carries_addressLoad_iff.mp (carries_packAddressLoad register target instruction)
  rw [hhigh, extractLsb'_displacement _ _ (by decide)]

/-- Put together, the two displacement fields are the low 21 bits of the difference (R112). -/
theorem dispFields_packAddressLoad (register : Word) (target instruction : Addr) :
    (packAddressLoad register target instruction).extractLsb' 5 19 ++
        (packAddressLoad register target instruction).extractLsb' 29 2 =
      (target - instruction).extractLsb' 0 21 :=
  addressLoadDisplacement_of_carries (carries_packAddressLoad register target instruction)

/-- What the low displacement call ORs in. -/
theorem bfw_zero_dispLowSlot (disp : Word) : bfw disp 0 dispLowSlot = (disp.extractLsb' 0 2).setWidth 32 <<< 29 :=
  bfw_zero_eq_shift disp dispLowSlot

/-- What the high displacement call ORs in. -/
theorem bfw_zero_dispHighSlot (disp : Word) : bfw disp 0 dispHighSlot = (disp.extractLsb' 2 19).setWidth 32 <<< 5 :=
  bfw_zero_eq_shift disp dispHighSlot

/-- The closed form (R113), whose two displacement fields stand in the other order than the calls write them. -/
theorem packAddressLoad_eq_or (register : Word) (target instruction : Addr) :
    packAddressLoad register target instruction =
      addressLoadTemplate ||| (register.extractLsb' 0 5).setWidth 32 |||
        ((displacement target instruction).extractLsb' 2 19).setWidth 32 <<< 5 |||
        ((displacement target instruction).extractLsb' 0 2).setWidth 32 <<< 29 := by
  rw [← bfw_zero_registerSlot, ← bfw_zero_dispLowSlot, ← bfw_zero_dispHighSlot, ← bfw_eq_or, ← bfw_eq_or, ← bfw_eq_or,
    packAddressLoad_eq_bfw]
  exact writerCallsCommute _ _ _ _ _

/-- Calls that agree on the register's low 5 bits and the difference's low 21 bits give the same word. -/
theorem packAddressLoad_congr {register register' : Word} {target instruction target' instruction' : Addr}
    (hregister : register.extractLsb' 0 5 = register'.extractLsb' 0 5)
    (hdifference : (target - instruction).extractLsb' 0 21 = (target' - instruction').extractLsb' 0 21) :
    packAddressLoad register target instruction = packAddressLoad register' target' instruction' := by
  have hlow := extractLsb'_eq_of_low_slice_eq hdifference (show 0 + 2 ≤ 21 by decide)
  have hhigh := extractLsb'_eq_of_low_slice_eq hdifference (show 2 + 19 ≤ 21 by decide)
  have hcarries : Carries (.addressLoad register' target' instruction')
      (packAddressLoad register target instruction) := by
    rw [carries_addressLoad_iff, ← hregister, ← hlow, ← hhigh, ← carries_addressLoad_iff]
    exact carries_packAddressLoad register target instruction
  exact hcarries.unique (carries_packAddressLoad register' target' instruction')

/-! The far side's reading of the displacement fields (R114, R115). -/

/-- Read as signed, the fields hold the distance wrapped into their signed range. -/
theorem toInt_dispFields_packAddressLoad (register : Word) (target instruction : Addr) :
    ((packAddressLoad register target instruction).extractLsb' 5 19 ++
        (packAddressLoad register target instruction).extractLsb' 29 2).toInt =
      (distance target instruction).bmod (2 ^ 21) := by
  rw [dispFields_packAddressLoad, toInt_extractLsb'_zero _ (by decide), distance]

/-- Read as unsigned, the fields hold the distance modulo `2^21`. -/
theorem toNat_dispFields_packAddressLoad (register : Word) (target instruction : Addr) :
    (((packAddressLoad register target instruction).extractLsb' 5 19 ++
        (packAddressLoad register target instruction).extractLsb' 29 2).toNat : Int) =
      distance target instruction % 2 ^ 21 := by
  rw [dispFields_packAddressLoad, toNat_extractLsb'_zero_eq_toInt_emod _ (by decide), distance]
  rfl

/-! The statements. -/

/-- Settles O15: the word is the writer chain over the displacement, each field a copy of its slice, and the bits
outside the fields are the template's. -/
theorem addressLoadAnswersClosedForm : Obligations.AddressLoadAnswersClosedForm := by
  refine ⟨fun register target instruction s => ?closedForm, fun s => ?workedExample⟩
  case closedForm =>
    have hform := admits_packAddressLoad register target instruction
    exact ⟨packAddressLoad register target instruction, displacement target instruction,
      exec_addressLoad register target instruction s, toNat_displacement target instruction,
      displacement_eq_sub (by decide) target instruction, packAddressLoad_eq_bfw register target instruction,
      packAddressLoad_eq_or register target instruction, extractLsb'_of_admits hform (by decide),
      dispLowField_packAddressLoad register target instruction, extractLsb'_of_admits hform (by decide),
      dispHighField_packAddressLoad register target instruction,
      registerField_packAddressLoad register target instruction⟩
  case workedExample =>
    have hword : packAddressLoad 0#32 0x1008#64 0x1000#64 = 0x10000040#32 := by decide
    rw [exec_addressLoad, hword]

/-- Settles O16: in contract nothing wraps, so the 21-bit slice is the distance and extends to the whole difference. -/
theorem addressLoadInContractReadsBack : Obligations.AddressLoadInContractReadsBack := by
  intro register target instruction s hr hlo hhi
  refine ⟨packAddressLoad register target instruction, exec_addressLoad register target instruction s, ?register,
    ?distance, ?target⟩
  case register => rw [registerField_packAddressLoad, toNat_extractLsb'_of_lt (Nat.lt_succ_of_le hr)]
  case distance =>
    rw [toInt_dispFields_packAddressLoad]
    exact Int.bmod_eq_of_le_mul_two (by omega) (by omega)
  case target =>
    rw [distance] at hlo hhi
    rw [dispFields_packAddressLoad, signExtend_extractLsb'_of_toInt (by decide) (by omega) (by omega), add_sub_cancel]

/-- Settles O17: the fields hold the distance modulo `2^21`; outside the contract the policy `refuse` answers
nothing. -/
theorem addressLoadOutOfContractTruncates : Obligations.AddressLoadOutOfContractTruncates := by
  intro register target instruction s hout
  refine ⟨⟨packAddressLoad register target instruction, exec_addressLoad register target instruction s,
    admits_packAddressLoad register target instruction, ?register,
    toNat_dispFields_packAddressLoad register target instruction, ?signedReading⟩, ?refused⟩
  case register => rw [registerField_packAddressLoad, BitVec.extractLsb'_toNat, Nat.shiftRight_zero]
  case signedReading =>
    rw [toInt_dispFields_packAddressLoad]
    exact Int.dvd_bmod_sub_self
  case refused =>
    exact execUnder_refuse_of_not_wellFormed (Bool.eq_false_iff.mpr (mt wellFormed_addressLoad_iff.mp hout)) s

/-- Settles O18: no bit is read but the register's low 5 and the difference's low 21. -/
theorem addressLoadDependsOnDistanceOnly : Obligations.AddressLoadDependsOnDistanceOnly := by
  intro register register' target instruction target' instruction' s hregister hdifference
  have hword : packAddressLoad register target instruction = packAddressLoad register' target' instruction' :=
    packAddressLoad_congr (extractLsb'_zero_eq_of_toNat_mod_eq hregister)
      (extractLsb'_zero_eq_of_toNat_mod_eq hdifference)
  exact ⟨packAddressLoad register target instruction, exec_addressLoad register target instruction s,
    hword ▸ exec_addressLoad register' target' instruction' s⟩

end Sys2Proof.Machine

/-! PROOFS of the family 43_byte_store.md: the byte-store word as its template, source field and base field, and as a
sum of the two register indices modulo 32 (R130 to R135). -/

namespace Sys2Proof.Machine

/-! The contract, and register operands in and out of it (R205). -/

theorem wellFormed_byteStore_iff {source base : Word} :
    (Instr.byteStore source base).wellFormed = true ↔ source.toNat ≤ 31 ∧ base.toNat ≤ 31 := by
  rw [Instr.wellFormed, Bool.and_eq_true, registerFits_iff, registerFits_iff, Nat.lt_succ_iff, Nat.lt_succ_iff]

/-- The register field's slice of an operand, as a number. -/
theorem toNat_registerSlice (register : Word) : (register.extractLsb' 0 5).toNat = register.toNat % 32 := by
  rw [BitVec.extractLsb'_toNat, Nat.shiftRight_zero]

/-- Reducing an index modulo 32 does not change its register field. -/
theorem registerSlice_umod (register : Word) : (register % 32#32).extractLsb' 0 5 = register.extractLsb' 0 5 := by
  have hmod : (register % 32#32).toNat = register.toNat % 32 := BitVec.toNat_umod
  apply extractLsb'_zero_eq_of_toNat_mod_eq
  rw [hmod]
  exact Nat.mod_mod _ _

/-- An index in contract stands unchanged on the word, alone. -/
theorem setWidth_registerSlice_of_le {register : Word} (h : register.toNat ≤ 31) :
    (register.extractLsb' 0 5).setWidth 32 = register :=
  setWidth_extractLsb'_eq_of_lt rfl (Nat.lt_succ_of_le h)

/-! The byte-store word (R130). -/

/-- The two writer calls on the template. -/
theorem packByteStore_eq_bfw (source base : Word) :
    packByteStore source base = bfw base (bfw source byteStoreTemplate registerSlot) baseSlot := by
  rw [packByteStore, byteStoreCalls, packWith_cons, packWith_cons, packWith_nil]

/-- The machine answers a byte-store call with its packer's word. -/
theorem exec_byteStore (source base : Word) (s : State) :
    exec (.byteStore source base) s = .next (s.answered .encByteStore (packByteStore source base)) :=
  exec_eq_answered _ s

theorem carries_packByteStore (source base : Word) :
    Carries (.byteStore source base) (packByteStore source base) :=
  carries_wordOf _

/-- The constant bits are the template's, whatever the operands. -/
theorem opcode_packByteStore (source base : Word) :
    (packByteStore source base).extractLsb' 10 22 = 0b0011100100000000000000#22 := by
  obtain ⟨hform, -, -⟩ := carries_byteStore_iff.mp (carries_packByteStore source base)
  exact extractLsb'_of_admits hform (by decide)

theorem sourceField_packByteStore (source base : Word) :
    (packByteStore source base).extractLsb' 0 5 = source.extractLsb' 0 5 := by
  obtain ⟨-, hsource, -⟩ := carries_byteStore_iff.mp (carries_packByteStore source base)
  exact hsource

theorem baseField_packByteStore (source base : Word) :
    (packByteStore source base).extractLsb' 5 5 = base.extractLsb' 0 5 := by
  obtain ⟨-, -, hbase⟩ := carries_byteStore_iff.mp (carries_packByteStore source base)
  exact hbase

/-- In contract the source index is read back from the low field (R133). -/
theorem toNat_sourceField_packByteStore {source : Word} (base : Word) (h : source.toNat ≤ 31) :
    ((packByteStore source base).extractLsb' 0 5).toNat = source.toNat := by
  rw [sourceField_packByteStore, toNat_extractLsb'_of_lt (Nat.lt_succ_of_le h)]

/-- In contract the base index is read back from the field above it (R133). -/
theorem toNat_baseField_packByteStore (source : Word) {base : Word} (h : base.toNat ≤ 31) :
    ((packByteStore source base).extractLsb' 5 5).toNat = base.toNat := by
  rw [baseField_packByteStore, toNat_extractLsb'_of_lt (Nat.lt_succ_of_le h)]

/-- What the base call ORs in. -/
theorem bfw_zero_baseSlot (base : Word) : bfw base 0 baseSlot = (base.extractLsb' 0 5).setWidth 32 <<< 5 :=
  bfw_zero_eq_shift base baseSlot

/-- The closed form (R131). -/
theorem packByteStore_eq_or (source base : Word) :
    packByteStore source base =
      byteStoreTemplate ||| (source.extractLsb' 0 5).setWidth 32 ||| (base.extractLsb' 0 5).setWidth 32 <<< 5 := by
  rw [← bfw_zero_registerSlot, ← bfw_zero_baseSlot, packByteStore_eq_bfw, bfw_eq_or base, bfw_eq_or source]

/-- The closed form as integers: each call meets a zero field, so nothing carries. -/
theorem toNat_packByteStore (source base : Word) :
    (packByteStore source base).toNat = 0x39000000 + source.toNat % 32 + 32 * (base.toNat % 32) := by
  have hsourceField : byteStoreTemplate.extractLsb' 0 5 = 0#5 :=
    extractLsb'_packWith_before (i := .byteStore source base) (before := []) rfl
  have hbaseField : (bfw source byteStoreTemplate registerSlot).extractLsb' 5 5 = 0#5 :=
    extractLsb'_packWith_before (i := .byteStore source base) (before := [⟨source, registerSlot⟩]) rfl
  have hsource : (bfw source byteStoreTemplate registerSlot).toNat =
      0x39000000 + (source.extractLsb' 0 5).toNat * 1 :=
    toNat_bfw_of_zero_field source hsourceField
  have hbase : (packByteStore source base).toNat =
      (bfw source byteStoreTemplate registerSlot).toNat + (base.extractLsb' 0 5).toNat * 32 :=
    toNat_bfw_of_zero_field base hbaseField
  rw [hbase, hsource, toNat_registerSlice, toNat_registerSlice, Nat.mul_one, Nat.mul_comm]

/-- Operands that agree on their low 5 bits give the same word: no other bit is read (R83). -/
theorem packByteStore_congr {source source' base base' : Word}
    (hsource : source.extractLsb' 0 5 = source'.extractLsb' 0 5)
    (hbase : base.extractLsb' 0 5 = base'.extractLsb' 0 5) :
    packByteStore source base = packByteStore source' base' := by
  rw [packByteStore_eq_or, packByteStore_eq_or, hsource, hbase]

/-- In contract the two orders of a pair give one word only when the registers are the same: their low fields
differ otherwise (R132). -/
theorem packByteStore_comm_iff {source base : Word} (hs : source.toNat ≤ 31) (hb : base.toNat ≤ 31) :
    packByteStore source base = packByteStore base source ↔ source = base := by
  constructor
  · intro h
    apply BitVec.eq_of_toNat_eq
    rw [← toNat_sourceField_packByteStore base hs, h, toNat_sourceField_packByteStore source hb]
  · rintro rfl
    rfl

/-! The statements. -/

/-- Settles O19: the word is the writer chain, whose calls OR in their shifted slices; each field is a copy of its
slice, and the other bits are the template's. -/
theorem byteStoreAnswersClosedForm : Obligations.ByteStoreAnswersClosedForm := by
  refine ⟨fun source base s => ?closedForm, fun s => ?workedExample⟩
  case closedForm =>
    exact ⟨packByteStore source base, exec_byteStore source base s, packByteStore_eq_bfw source base,
      packByteStore_eq_or source base, opcode_packByteStore source base, baseField_packByteStore source base,
      sourceField_packByteStore source base⟩
  case workedExample =>
    have hword : packByteStore 1#32 2#32 = 0x39000041#32 := by decide
    rw [exec_byteStore, hword]

/-- Settles O20: the low field holds the first operand, so the two orders differ there. -/
theorem byteStoreOperandOrderMatters : Obligations.ByteStoreOperandOrderMatters := by
  refine ⟨fun source base s hs hb => ?orders, fun s => ?examples⟩
  case orders =>
    exact ⟨packByteStore source base, packByteStore base source, exec_byteStore source base s,
      exec_byteStore base source s, toNat_sourceField_packByteStore base hs, toNat_baseField_packByteStore source hb,
      packByteStore_comm_iff hs hb⟩
  case examples =>
    have hword : packByteStore 1#32 2#32 = 0x39000041#32 := by decide
    have hswapped : packByteStore 2#32 1#32 = 0x39000022#32 := by decide
    rw [exec_byteStore, exec_byteStore, hword, hswapped]
    exact ⟨rfl, rfl⟩

/-- Settles O21: the word is a sum of the indices modulo 32, which are the indices themselves in contract; outside it
the policy `refuse` answers nothing. -/
theorem byteStoreIndicesModulo32 : Obligations.ByteStoreIndicesModulo32 := by
  intro source base s
  refine ⟨fun hs hb => ?inContract, fun hout => ⟨?sameAsModulo32, ?sumModulo32, ?refused⟩⟩
  case inContract =>
    have hsum : (packByteStore source base).toNat = 0x39000000 + source.toNat + 32 * base.toNat := by
      rw [toNat_packByteStore, Nat.mod_eq_of_lt (Nat.lt_succ_of_le hs), Nat.mod_eq_of_lt (Nat.lt_succ_of_le hb)]
    exact ⟨packByteStore source base, exec_byteStore source base s, hsum, toNat_sourceField_packByteStore base hs,
      toNat_baseField_packByteStore source hb⟩
  case sameAsModulo32 =>
    rw [exec_byteStore, exec_byteStore, packByteStore_congr (registerSlice_umod source) (registerSlice_umod base)]
  case sumModulo32 =>
    exact ⟨packByteStore source base, exec_byteStore source base s, toNat_packByteStore source base⟩
  case refused =>
    exact execUnder_refuse_of_not_wellFormed (Bool.eq_false_iff.mpr (mt wellFormed_byteStore_iff.mp hout)) s

/-- Settles O38: the closed form, in which an index in contract is its own slice. -/
theorem byteStoreAcceptsTheSameRegisterTwice : Obligations.ByteStoreAcceptsTheSameRegisterTwice := by
  refine ⟨fun r s hr => ?closedForm, fun s => ?workedExample⟩
  case closedForm => rw [exec_byteStore, packByteStore_eq_or, setWidth_registerSlice_of_le hr, byteStoreTemplate]
  case workedExample =>
    have hword : packByteStore 5#32 5#32 = 0x390000A5#32 := by decide
    rw [exec_byteStore, hword]

end Sys2Proof.Machine

/-! PROOFS of the family 44_branch.md: a slice above the low bits as the low slice of a shifted vector, and the branch
word as its template and one field, bits 27 to 2 of the difference of the addresses, which are the distance divided by
four and rounded down (R140 to R147). -/

namespace Sys2Proof.Machine

/-! The two right shifts, and the slice that both bring down to bit 0 (R142). -/

theorem extractLsb'_zero_ushiftRight {v : Nat} (d : BitVec v) (n len : Nat) :
    (d >>> n).extractLsb' 0 len = d.extractLsb' n len := by
  apply extractLsb'_congr
  intro k _
  rw [BitVec.getLsbD_ushiftRight, Nat.zero_add]

/-- The sign bits an arithmetic shift brings in stand above every slice of the vector itself. -/
theorem extractLsb'_zero_sshiftRight {v n len : Nat} (d : BitVec v) (h : n + len ≤ v) :
    (d.sshiftRight n).extractLsb' 0 len = d.extractLsb' n len := by
  apply extractLsb'_congr
  intro k hk
  rw [BitVec.getLsbD_sshiftRight, Nat.zero_add, if_pos (show n + k < v by omega),
    decide_eq_false (show ¬ v ≤ k by omega), Bool.not_false, Bool.true_and]

/-- An arithmetic shift divides the signed reading and rounds toward minus infinity (R145). -/
theorem toInt_sshiftRight_eq_fdiv {v : Nat} (d : BitVec v) (n : Nat) :
    (d.sshiftRight n).toInt = d.toInt.fdiv (2 ^ n : Nat) := by
  rw [BitVec.toInt_sshiftRight, Int.shiftRight_eq_div_pow, Int.fdiv_eq_ediv_of_nonneg _ (Int.natCast_nonneg _)]

/-! The contract (R205). -/

theorem wellFormed_branch_iff {target instruction : Addr} :
    (Instr.branch target instruction).wellFormed = true ↔
      distance target instruction % 4 = 0 ∧
      -134217728 ≤ distance target instruction ∧ distance target instruction < 134217728 := by
  rw [Instr.wellFormed, Bool.and_eq_true, branchDistanceAligned_iff, branchDistanceFits_iff, Int.dvd_iff_emod_eq_zero]

/-! The branch word (R140). -/

/-- The writer call on the template. -/
theorem packBranch_eq_bfw (target instruction : Addr) :
    packBranch target instruction = bfw (wordOffset (displacement target instruction)) branchTemplate offsetSlot := by
  rw [packBranch, branchCalls, packWith_cons, packWith_nil]

/-- With an arithmetic shift in place of the logical one the writer call gives the same word (R142). -/
theorem packBranch_eq_bfw_sshiftRight (target instruction : Addr) :
    packBranch target instruction =
      bfw ((displacement target instruction).sshiftRight 2) branchTemplate offsetSlot := by
  have hslice : (wordOffset (displacement target instruction)).extractLsb' 0 26 =
      ((displacement target instruction).sshiftRight 2).extractLsb' 0 26 := by
    rw [wordOffset, extractLsb'_zero_ushiftRight, extractLsb'_zero_sshiftRight _ (by decide)]
  rw [packBranch_eq_bfw]
  exact bfw_congr_slice branchTemplate hslice

/-- The machine answers a branch call with its packer's word. -/
theorem exec_branch (target instruction : Addr) (s : State) :
    exec (.branch target instruction) s = .next (s.answered .encBranch (packBranch target instruction)) :=
  exec_eq_answered _ s

theorem carries_packBranch (target instruction : Addr) :
    Carries (.branch target instruction) (packBranch target instruction) :=
  carries_wordOf _

/-- The bits above the field are the template's, whatever the addresses. -/
theorem opcode_packBranch (target instruction : Addr) :
    (packBranch target instruction).extractLsb' 26 6 = 0b000101#6 := by
  obtain ⟨hform, -⟩ := carries_branch_iff.mp (carries_packBranch target instruction)
  exact extractLsb'_of_admits hform (by decide)

/-- The field is bits 27 to 2 of the difference of the addresses. -/
theorem offsetField_packBranch (target instruction : Addr) :
    (packBranch target instruction).extractLsb' 0 26 = (target - instruction).extractLsb' 2 26 := by
  obtain ⟨-, hoffset⟩ := carries_branch_iff.mp (carries_packBranch target instruction)
  exact hoffset

/-- What the offset call ORs in: its field stands at bit 0. -/
theorem bfw_zero_offsetSlot (off : Word) : bfw off 0 offsetSlot = (off.extractLsb' 0 26).setWidth 32 :=
  (bfw_zero_eq_shift off offsetSlot).trans (BitVec.shiftLeft_zero _)

/-- The closed form (R143) over the whole difference: what truncation takes away is not read. -/
theorem packBranch_eq_or (target instruction : Addr) :
    packBranch target instruction = branchTemplate ||| ((target - instruction).extractLsb' 2 26).setWidth 32 := by
  rw [packBranch_eq_bfw, bfw_eq_or, bfw_zero_offsetSlot, extractLsb'_wordOffset_displacement]

/-- Calls whose differences agree in bits 27 to 2 give the same word (R147). -/
theorem packBranch_congr {target instruction target' instruction' : Addr}
    (h : (target - instruction).extractLsb' 2 26 = (target' - instruction').extractLsb' 2 26) :
    packBranch target instruction = packBranch target' instruction' := by
  rw [packBranch_eq_or, packBranch_eq_or, h]

/-! The far side's reading of the offset field (R144 to R146). -/

/-- The difference shifted arithmetically is the distance in whole words, rounded down. -/
theorem toInt_difference_sshiftRight (target instruction : Addr) :
    ((target - instruction).sshiftRight 2).toInt = (distance target instruction).fdiv 4 :=
  toInt_sshiftRight_eq_fdiv _ 2

/-- The field is the low slice of the difference shifted arithmetically. -/
theorem offsetField_packBranch_eq_sshiftRight (target instruction : Addr) :
    (packBranch target instruction).extractLsb' 0 26 = ((target - instruction).sshiftRight 2).extractLsb' 0 26 := by
  rw [offsetField_packBranch, extractLsb'_zero_sshiftRight _ (by decide)]

/-- Read as signed, the field holds `floor(D / 4)` wrapped into its signed range. -/
theorem toInt_offsetField_packBranch (target instruction : Addr) :
    ((packBranch target instruction).extractLsb' 0 26).toInt =
      ((distance target instruction).fdiv 4).bmod (2 ^ 26) := by
  rw [offsetField_packBranch_eq_sshiftRight, toInt_extractLsb'_zero _ (by decide), toInt_difference_sshiftRight]

/-- Read as unsigned, the field holds `floor(D / 4)` modulo `2^26`. -/
theorem toNat_offsetField_packBranch (target instruction : Addr) :
    (((packBranch target instruction).extractLsb' 0 26).toNat : Int) =
      (distance target instruction).fdiv 4 % 2 ^ 26 := by
  rw [offsetField_packBranch_eq_sshiftRight, toNat_extractLsb'_zero_eq_toInt_emod _ (by decide),
    toInt_difference_sshiftRight]
  rfl

/-- A distance in range, aligned or not, leaves `floor(D / 4)` unwrapped in the field. -/
theorem toInt_offsetField_packBranch_of_fits {target instruction : Addr}
    (hlo : -134217728 ≤ distance target instruction) (hhi : distance target instruction < 134217728) :
    ((packBranch target instruction).extractLsb' 0 26).toInt = (distance target instruction).fdiv 4 := by
  rw [toInt_offsetField_packBranch, Int.fdiv_eq_ediv_of_nonneg _ (by decide)]
  exact Int.bmod_eq_of_le_mul_two (by omega) (by omega)

/-! The statements. -/

/-- Settles O22: the word is the writer call on the template, whose field is the same slice under either shift, taken
before the truncation or after it. -/
theorem branchAnswersClosedForm : Obligations.BranchAnswersClosedForm := by
  refine ⟨fun target instruction s => ?closedForm, fun s => ?workedExample⟩
  case closedForm =>
    have hslice : (displacement target instruction).extractLsb' 2 26 = (target - instruction).extractLsb' 2 26 :=
      extractLsb'_displacement target instruction (by decide)
    refine ⟨packBranch target instruction, displacement target instruction, exec_branch target instruction s,
      toNat_displacement target instruction, packBranch_eq_bfw target instruction,
      packBranch_eq_bfw_sshiftRight target instruction, ?orForm, ?shiftFirst, opcode_packBranch target instruction,
      ?field⟩
    case orForm =>
      rw [hslice]
      exact packBranch_eq_or target instruction
    case shiftFirst =>
      rw [extractLsb'_zero_ushiftRight]
      exact packBranch_eq_or target instruction
    case field => rw [hslice, offsetField_packBranch]
  case workedExample =>
    have hword : packBranch 0x1010#64 0x1000#64 = 0x14000004#32 := by decide
    rw [exec_branch, hword]

/-- Settles O23: in contract nothing wraps and nothing is rounded, so the field with two zero bits below it is the low
part of the difference and extends to the whole of it. -/
theorem branchInContractReadsBack : Obligations.BranchInContractReadsBack := by
  intro target instruction s hmod hlo hhi
  have haligned : 4 ∣ distance target instruction := Int.dvd_of_emod_eq_zero hmod
  refine ⟨packBranch target instruction, exec_branch target instruction s, ?distance, ?target⟩
  case distance =>
    rw [toInt_offsetField_packBranch_of_fits hlo hhi, Int.mul_fdiv_cancel_of_dvd haligned]
  case target =>
    have hdisp : (packBranch target instruction).extractLsb' 0 26 ++ 0b00#2 =
        (target - instruction).extractLsb' 0 28 :=
      branchDisplacement_of_carries (carries_packBranch target instruction) haligned
    rw [distance] at hlo hhi
    rw [hdisp, signExtend_extractLsb'_of_toInt (by decide) (by omega) (by omega), add_sub_cancel]

/-- Settles O24: in range the field holds `floor(D / 4)` unwrapped; a misaligned call is outside the contract, where the
policy `refuse` answers nothing. -/
theorem branchMisalignedDistanceRoundsDown : Obligations.BranchMisalignedDistanceRoundsDown := by
  intro target instruction s hmod hlo hhi
  have hout : (Instr.branch target instruction).wellFormed = false :=
    Bool.eq_false_iff.mpr fun hwf => hmod (wellFormed_branch_iff.mp hwf).1
  exact ⟨⟨packBranch target instruction, exec_branch target instruction s,
    toInt_offsetField_packBranch_of_fits hlo hhi⟩, execUnder_refuse_of_not_wellFormed hout s⟩

/-- Settles O25: the field holds `floor(D / 4)` modulo `2^26`; outside the contract the policy `refuse` answers
nothing. -/
theorem branchTooFarWrapsModulo26Bits : Obligations.BranchTooFarWrapsModulo26Bits := by
  intro target instruction s hfar
  refine ⟨⟨packBranch target instruction, exec_branch target instruction s,
    toNat_offsetField_packBranch target instruction, ?signedReading, opcode_packBranch target instruction⟩, ?refused⟩
  case signedReading =>
    have hbytes : (2 ^ 28 : Int) = 4 * (2 ^ 26 : Nat) := by decide
    rw [toInt_offsetField_packBranch, ← mul_sub, hbytes]
    exact mul_dvd_mul_left 4 Int.dvd_bmod_sub_self
  case refused =>
    have hout : (Instr.branch target instruction).wellFormed = false :=
      Bool.eq_false_iff.mpr fun hwf => hfar (wellFormed_branch_iff.mp hwf).2
    exact execUnder_refuse_of_not_wellFormed hout s

/-- Settles O26: no bit of the difference is read but bits 27 to 2. -/
theorem branchDependsOnDistanceOnly : Obligations.BranchDependsOnDistanceOnly := by
  intro target instruction target' instruction' s hdifference
  have hword : packBranch target instruction = packBranch target' instruction' := packBranch_congr hdifference
  exact ⟨packBranch target instruction, exec_branch target instruction s,
    hword ▸ exec_branch target' instruction' s⟩

end Sys2Proof.Machine

/-! PROOFS of the family 45_common_laws.md: what every evaluation has in common (R160, R161), the writer chain as a
sum or an exclusive OR in any order (R162, R170), the displacement as a number (R165, R166, R169), and the operands and
words that determine each other (R167, R168). -/

namespace Sys2Proof.Machine

open Sys2Proof.Safety

/-! The calls that have no answer, and the steps that are refused for it (R84, R161). -/

theorem answerTo_eq_none_iff {c : Call} :
    answerTo c = none ↔
      ∃ src srcStart dstIn dstStart count, c = .write src srcStart dstIn dstStart count ∧
        ¬ (srcStart + count ≤ 32 ∧ dstStart + count ≤ 32) := by
  constructor
  case mp =>
    intro h
    cases c with
    | pack i => cases h
    | write src srcStart dstIn dstStart count =>
      refine ⟨src, srcStart, dstIn, dstStart, count, rfl, fun ⟨hs, hd⟩ => ?_⟩
      rw [answerTo_write_of_bounds src dstIn hs hd] at h
      cases h
  case mpr =>
    rintro ⟨src, srcStart, dstIn, dstStart, count, rfl, h⟩
    exact answerTo_write_of_not_bounds src dstIn h

/-- A step is refused exactly when it would serve a call that has no answer. -/
theorem step_eq_refused_iff {s : State} {r : Refusal} :
    step s = .refused r ↔ r = .writerBounds ∧ ∃ c rest, s.calls = c :: rest ∧ answerTo c = none := by
  constructor
  case mp =>
    intro h
    cases hcalls : s.calls with
    | nil =>
      rw [step_of_no_calls hcalls] at h
      cases h
    | cons c rest =>
      rw [step_of_calls hcalls] at h
      cases hc : answerTo c with
      | none =>
        rw [hc] at h
        exact ⟨(Host.Outcome.refused.inj h).symm, c, rest, rfl, hc⟩
      | some a =>
        rw [hc] at h
        cases h
  case mpr =>
    rintro ⟨rfl, c, rest, hcalls, hc⟩
    rw [step_of_calls hcalls, hc]

/-- What the policy `refuse` answers, the machine answers too. -/
theorem exec_of_execUnder_refuse {i : Instr} {s t : State} (h : execUnder .refuse i s = .next t) :
    exec i s = .next t := by
  cases hwf : i.wellFormed with
  | true => rwa [execUnder_refuse_of_wellFormed hwf, ← exec_eq_answered] at h
  | false =>
    rw [execUnder_refuse_of_not_wellFormed hwf] at h
    cases h

/-! The chain of writer calls in any order, and with another operation in place of OR (R162, R170). -/

/-- Writer calls commute, so their order has no effect on the word. -/
theorem packWith_perm {calls order : List WriterCall} (template : Word) (h : order.Perm calls) :
    packWith template order = packWith template calls :=
  h.foldl_eq' (fun c _ d _ w => writerCallsCommute d.src c.src w d.slot c.slot) template

theorem extractLsb'_bfw_of_disjoint (src dstIn : Word) {p q : Slot} (h : p.Disjoint q) :
    (bfw src dstIn p).extractLsb' q.dstStart q.count = dstIn.extractLsb' q.dstStart q.count := by
  apply extractLsb'_congr
  intro j hj
  have hcov := Slot.covers_dstStart_add hj
  exact getLsbD_bfw_of_not_covers src dstIn hcov.lt (h.symm.not_covers hcov)

/-- An operation that does what the writer does to a zero field may stand for it in a chain whose calls all meet one. -/
theorem packWith_eq_foldl_of_zero_fields {op : Word → Word → Word}
    (hop : ∀ (src dstIn : Word) (slot : Slot), dstIn.extractLsb' slot.dstStart slot.count = 0#slot.count →
      bfw src dstIn slot = op dstIn (bfw src 0 slot))
    {template : Word} {calls : List WriterCall} (hdis : calls.Pairwise fun c d => c.slot.Disjoint d.slot)
    (hzero : ∀ c ∈ calls, template.extractLsb' c.slot.dstStart c.slot.count = 0#c.slot.count) :
    packWith template calls = calls.foldl (fun w c => op w (bfw c.src 0 c.slot)) template := by
  induction calls generalizing template with
  | nil => rfl
  | cons c rest ih =>
    obtain ⟨hc, hrest⟩ := List.forall_mem_cons.mp hzero
    obtain ⟨hfirst, hdisRest⟩ := List.pairwise_cons.mp hdis
    have hstillZero : ∀ d ∈ rest,
        (bfw c.src template c.slot).extractLsb' d.slot.dstStart d.slot.count = 0#d.slot.count := by
      intro d hd
      rw [extractLsb'_bfw_of_disjoint _ _ (hfirst d hd), hrest d hd]
    rw [packWith_cons, ih hdisRest hstillZero, List.foldl_cons, hop _ _ _ hc]

/-- Vectors without a common 1 bit have the same OR and exclusive OR. -/
theorem or_eq_xor_of_and_eq_zero {n : Nat} {x y : BitVec n} (h : x &&& y = 0#n) : x ||| y = x ^^^ y := by
  have hbool : ∀ a b : Bool, (a && b) = false → (a || b) = (a ^^ b) := by decide
  apply BitVec.eq_of_getLsbD_eq
  intro k _
  have hbit := congrArg (BitVec.getLsbD · k) h
  simp only [BitVec.getLsbD_and, BitVec.getLsbD_zero] at hbit
  rw [BitVec.getLsbD_or, BitVec.getLsbD_xor]
  exact hbool _ _ hbit

/-- Into a zero field an exclusive OR of the slice does as well (R170). -/
theorem bfw_eq_xor_of_zero_field {dstIn : Word} {slot : Slot} (src : Word)
    (h : dstIn.extractLsb' slot.dstStart slot.count = 0#slot.count) :
    bfw src dstIn slot = dstIn ^^^ bfw src 0 slot := by
  rw [bfw_eq_or, or_eq_xor_of_and_eq_zero (and_bfw_zero_of_zero_field src h)]

/-- The template of a call is 0 in each of its fields (R69). -/
theorem extractLsb'_templateOf {i : Instr} {c : WriterCall} (hc : c ∈ writerCallsOf i) :
    (templateOf i).extractLsb' c.slot.dstStart c.slot.count = 0#c.slot.count := by
  apply BitVec.eq_of_getLsbD_eq
  intro j hj
  rw [templateOf_eq_fixedBits, BitVec.getLsbD_extractLsb',
    getLsbD_fixedBits_of_covered (mem_slotsOf_iff.mpr ⟨c, hc, rfl⟩) (Slot.covers_dstStart_add hj), Bool.and_false,
    BitVec.getLsbD_zero]

/-- The word of a call, by any operation that does what the writer does to a zero field. -/
theorem wordOf_eq_foldl {op : Word → Word → Word}
    (hop : ∀ (src dstIn : Word) (slot : Slot), dstIn.extractLsb' slot.dstStart slot.count = 0#slot.count →
      bfw src dstIn slot = op dstIn (bfw src 0 slot)) (i : Instr) :
    wordOf i = (writerCallsOf i).foldl (fun w c => op w (bfw c.src 0 c.slot)) (templateOf i) := by
  rw [wordOf_eq_packWith]
  exact packWith_eq_foldl_of_zero_fields hop (writerCallsOf_pairwise_disjoint i) fun _ hc => extractLsb'_templateOf hc

/-! The displacement (R163 to R166, R169). -/

/-- Read as signed, the displacement is the distance wrapped into 32 bits. -/
theorem toInt_displacement (target instruction : Addr) :
    (displacement target instruction).toInt = (distance target instruction).bmod (2 ^ 32) := by
  rw [displacement, BitVec.setWidth_eq_extractLsb' (by decide), toInt_extractLsb'_zero _ (by decide), distance]

/-- An integer difference of two addresses, wrapped, is the difference of the addresses as vectors. -/
theorem sub_eq_ofInt_of_toNat_sub_eq {n : Nat} {x y : BitVec n} {D : Int} (h : (x.toNat : Int) - y.toNat = D) :
    x - y = BitVec.ofInt n D := by
  apply BitVec.eq_of_toInt_eq
  rw [BitVec.toInt_sub, BitVec.toInt_ofInt, BitVec.toInt_eq_toNat_bmod x, BitVec.toInt_eq_toNat_bmod y,
    Int.bmod_sub_bmod, Int.sub_bmod_bmod, h]

/-- The displacement is that of the addresses cut to 32 bits. -/
theorem displacement_setWidth {n : Nat} (h : 32 ≤ n) (target instruction : BitVec n) :
    displacement (target.setWidth 32) (instruction.setWidth 32) = displacement target instruction := by
  rw [displacement_eq_sub h, displacement, BitVec.setWidth_eq]

theorem packAddressLoad_setWidth {n : Nat} (h : 32 ≤ n) (register : Word) (target instruction : BitVec n) :
    packAddressLoad register (target.setWidth 32) (instruction.setWidth 32) =
      packAddressLoad register target instruction := by
  rw [packAddressLoad, packAddressLoad, displacement_setWidth h]

theorem packBranch_setWidth {n : Nat} (h : 32 ≤ n) (target instruction : BitVec n) :
    packBranch (target.setWidth 32) (instruction.setWidth 32) = packBranch target instruction := by
  rw [packBranch, packBranch, displacement_setWidth h]

theorem packAddressLoad_add_right (register : Word) (target instruction c : Addr) :
    packAddressLoad register (target + c) (instruction + c) = packAddressLoad register target instruction :=
  packAddressLoad_congr rfl (by rw [add_sub_add_right_eq_sub])

theorem packBranch_add_right (target instruction c : Addr) :
    packBranch (target + c) (instruction + c) = packBranch target instruction :=
  packBranch_congr (by rw [add_sub_add_right_eq_sub])

/-- Equal addresses leave both displacement fields at 0 (R117). -/
theorem packAddressLoad_self (register : Word) (a : Addr) :
    packAddressLoad register a a = addressLoadTemplate ||| (register.extractLsb' 0 5).setWidth 32 := by
  have hdisp : displacement a a = 0#32 := by
    rw [displacement, sub_self]
    rfl
  have hlow : ((0#32).extractLsb' 0 2).setWidth 32 <<< 29 = 0#32 := by decide
  have hhigh : ((0#32).extractLsb' 2 19).setWidth 32 <<< 5 = 0#32 := by decide
  rw [packAddressLoad_eq_or, hdisp, hlow, hhigh, BitVec.or_zero, BitVec.or_zero]

/-- Equal addresses leave the offset field at 0 (R148). -/
theorem packBranch_self (a : Addr) : packBranch a a = branchTemplate := by
  have hoffset : ((0#64).extractLsb' 2 26).setWidth 32 = 0#32 := by decide
  rw [packBranch_eq_or, sub_self, BitVec.ofNat_eq_ofNat, hoffset, BitVec.or_zero]

/-! The operands by which a word is reached (R167). -/

/-- A call is answered with the word that carries it. -/
theorem exec_of_carries {i : Instr} {w : Word} (h : Carries i w) (s : State) :
    exec i s = .next (s.answered i.operation w) := by
  rw [exec_eq_answered, (carries_wordOf i).unique h]

/-- The target by which an address-load at address 0 reaches the 21-bit displacement `f` (R167): the negative half of
the range is reached from the top of the address space. -/
def targetOfField (f : Nat) : Addr :=
  if f < 2 ^ 20 then BitVec.ofNat 64 f else BitVec.ofNat 64 (2 ^ 64 - 2 ^ 21 + f)

/-- Either way the low 21 bits of the target are the displacement. -/
theorem extractLsb'_targetOfField (x : BitVec 21) : (targetOfField x.toNat).extractLsb' 0 21 = x := by
  have hx := x.isLt
  apply BitVec.eq_of_toNat_eq
  rw [BitVec.extractLsb'_toNat, Nat.shiftRight_zero, targetOfField]
  split
  case isTrue => rw [BitVec.toNat_ofNat]; omega
  case isFalse => rw [BitVec.toNat_ofNat]; omega

theorem carries_addressLoad_targetOfField {w : Word} (h : Form.addressLoad.admits w = true) :
    Carries (.addressLoad (lowRegister w) (targetOfField (addressLoadDisplacement w).toNat) 0) w := by
  obtain ⟨-, hregister, hlow, hhigh⟩ := carries_addressLoad_iff.mp (carries_callAt h 0)
  have hdisp : (targetOfField (addressLoadDisplacement w).toNat).extractLsb' 0 21 =
      ((addressLoadDisplacement w).signExtend 64).extractLsb' 0 21 := by
    rw [extractLsb'_targetOfField, extractLsb'_signExtend _ (by decide)]
  rw [add_sub_cancel_left] at hlow hhigh
  refine carries_addressLoad_iff.mpr ⟨h, hregister, ?low, ?high⟩
  case low => rw [hlow, sub_zero, extractLsb'_eq_of_low_slice_eq hdisp (by decide)]
  case high => rw [hhigh, sub_zero, extractLsb'_eq_of_low_slice_eq hdisp (by decide)]

/-- Bits 27 to 2 of four times a 26-bit offset are the offset, whatever its sign. -/
theorem extractLsb'_ofNat_four_mul (x : BitVec 26) : (BitVec.ofNat 64 (4 * x.toNat)).extractLsb' 2 26 = x := by
  have hx := x.isLt
  apply BitVec.eq_of_toNat_eq
  rw [BitVec.extractLsb'_toNat, BitVec.toNat_ofNat, Nat.shiftRight_eq_div_pow]
  omega

theorem carries_branch_four_mul {w : Word} (h : Form.branch.admits w = true) :
    Carries (.branch (BitVec.ofNat 64 (4 * (w.extractLsb' 0 26).toNat)) 0) w :=
  carries_branch_iff.mpr ⟨h, by rw [sub_zero, extractLsb'_ofNat_four_mul]⟩

/-! The operands that a word determines (R168). -/

/-- Every call can be read back at some address: its own, or any if it names none. -/
theorem exists_instructionAddress (i : Instr) :
    ∃ a, i.instructionAddress? = none ∨ i.instructionAddress? = some a := by
  cases i.instructionAddress? with
  | none => exact ⟨0, .inl rfl⟩
  | some a => exact ⟨a, .inr rfl⟩

/-- The calls read off a word at two addresses differ by their place alone. -/
theorem sameOperands_callAt (a b : Addr) (w : Word) (f : Form) : SameOperands (callAt a w f) (callAt b w f) := by
  cases f with
  | moveImmediate => exact ⟨rfl, rfl⟩
  | addressLoad =>
    refine ⟨rfl, ?_⟩
    rw [distance_add_signExtend a _ (by decide), distance_add_signExtend b _ (by decide)]
  | byteStore => exact ⟨rfl, rfl⟩
  | branch =>
    rw [callAt, callAt, SameOperands, distance_add_signExtend a _ (by decide),
      distance_add_signExtend b _ (by decide)]

/-- Two in-contract calls that one word carries are both the one read off it. -/
theorem Carries.sameOperands {i j : Instr} {w : Word} (hi : Carries i w) (hj : Carries j w)
    (hiwf : i.wellFormed = true) (hjwf : j.wellFormed = true) : SameOperands i j := by
  obtain ⟨a, ha⟩ := exists_instructionAddress i
  obtain ⟨b, hb⟩ := exists_instructionAddress j
  have hform : i.form = j.form := by
    obtain ⟨hiForm, -⟩ := hi
    obtain ⟨hjForm, -⟩ := hj
    exact eq_of_admits hiForm hjForm
  rw [← callAt_of_carries hi hiwf ha, ← callAt_of_carries hj hjwf hb, hform]
  exact sameOperands_callAt a b w j.form

/-- A word decodes to the in-contract call it carries, at the address the call names. -/
theorem decodeAt_of_carries {i : Instr} {w : Word} {a : Addr} (h : Carries i w) (hwf : i.wellFormed = true)
    (ha : i.instructionAddress? = none ∨ i.instructionAddress? = some a) : decodeAt a w = .ok i := by
  have ⟨hform, _⟩ := h
  exact decodeAt_eq_ok_iff.mpr ⟨i.form, hform, callAt_of_carries h hwf ha⟩

/-- Calls of one operation with the same word are answered alike. -/
theorem exec_eq_of_wordOf_eq {i j : Instr} (hop : i.operation = j.operation) (hword : wordOf i = wordOf j)
    (s : State) : exec i s = exec j s := by
  rw [exec_eq_answered, exec_eq_answered, hop, hword]

/-! The statements. -/

/-- Settles O27: the call has an answer or it has none, and the state has no part in either. -/
theorem evaluationDependsOnItsInputsOnly : Obligations.EvaluationDependsOnItsInputsOnly := by
  intro c s t
  rw [perform_eq, perform_eq]
  cases answerTo c with
  | some a => exact .inl ⟨a, rfl, rfl⟩
  | none => exact .inr ⟨.writerBounds, rfl, rfl⟩

/-- Settles O28: the one call without an answer is a writer call outside its bounds (D5; log entries 4, 6 and 20). -/
theorem onlyUnboundedWriterCallsAreRefused : Obligations.OnlyUnboundedWriterCallsAreRefused := by
  refine ⟨fun i s => ⟨wordOf i, exec_eq_answered i s⟩, fun s r => ?refusedStep, fun s r => ?noFault,
    fun i s t => exec_of_execUnder_refuse⟩
  case refusedStep =>
    rw [step_eq_refused_iff]
    refine and_congr_right fun _ => ⟨?unbounded, ?noAnswer⟩
    case unbounded =>
      rintro ⟨c, rest, hcalls, hc⟩
      obtain ⟨src, srcStart, dstIn, dstStart, count, rfl, h⟩ := answerTo_eq_none_iff.mp hc
      exact ⟨src, srcStart, dstIn, dstStart, count, rest, hcalls, h⟩
    case noAnswer =>
      rintro ⟨src, srcStart, dstIn, dstStart, count, rest, hcalls, h⟩
      exact ⟨_, rest, hcalls, answerTo_write_of_not_bounds src dstIn h⟩
  case noFault => cases r

/-- Settles O29: any two writer calls commute, so the chain may be reordered. -/
theorem writerCallOrderIsUnobservable : Obligations.WriterCallOrderIsUnobservable := by
  intro i order s h
  rw [packWith_perm (templateOf i) h, ← wordOf_eq_packWith, exec_eq_answered]

/-- Settles O31: every call of a packer meets a zero field, where OR, addition and exclusive OR are the same. -/
theorem packerWritesNoBitTwice : Obligations.PackerWritesNoBitTwice := by
  intro i s
  refine ⟨writerCallsOf_pairwise_disjoint i, fun c hc => extractLsb'_templateOf hc, ?sum, ?exclusiveOr⟩
  case sum => rw [exec_eq_answered, wordOf_eq_foldl fun src _ _ => bfw_eq_add_of_zero_field src]
  case exclusiveOr => rw [exec_eq_answered, wordOf_eq_foldl fun src _ _ => bfw_eq_xor_of_zero_field src]

/-- Settles O33: the operands are those the word carries; only the low bits of the two targets matter. -/
theorem everyMatchingWordIsReached : Obligations.EveryMatchingWordIsReached := by
  intro w s
  refine ⟨fun h => ?moveImmediate, fun h => ?byteStore, fun h f hf => ?addressLoad, fun h => ?branch⟩
  case moveImmediate => exact exec_of_carries (carries_callAt h 0) s
  case byteStore => exact exec_of_carries (carries_callAt h 0) s
  case addressLoad =>
    subst hf
    exact exec_of_carries (carries_addressLoad_targetOfField h) s
  case branch => exact exec_of_carries (carries_branch_four_mul h) s

/-- Settles O35: in contract a word determines the call it carries; a register of 32 reads as 0, and a distance of 1
rounds down to 0. -/
theorem packersAreInjectiveOnTheContract : Obligations.PackersAreInjectiveOnTheContract := by
  refine ⟨fun i j s hi hj => ?inContract, fun f => ?outside⟩
  case inContract =>
    refine ⟨wordOf i, wordOf j, exec_eq_answered i s, exec_eq_answered j s, fun hword => ?sameOperands,
      fun a ha => decodeAt_of_carries (carries_wordOf i) hi ha⟩
    case sameOperands =>
      have hcarries : Carries j (wordOf i) := hword ▸ carries_wordOf j
      exact (carries_wordOf i).sameOperands hcarries hi hj
  case outside =>
    cases f with
    | moveImmediate =>
      refine ⟨.moveImmediate 0 0, .moveImmediate 32 0, rfl, rfl, ?_, exec_eq_of_wordOf_eq rfl (by decide)⟩
      exact fun ⟨hregister, _⟩ => absurd hregister (by decide)
    | addressLoad =>
      refine ⟨.addressLoad 0 0 0, .addressLoad 32 0 0, rfl, rfl, ?_, exec_eq_of_wordOf_eq rfl (by decide)⟩
      exact fun ⟨hregister, _⟩ => absurd hregister (by decide)
    | byteStore =>
      refine ⟨.byteStore 0 0, .byteStore 32 0, rfl, rfl, ?_, exec_eq_of_wordOf_eq rfl (by decide)⟩
      exact fun ⟨hsource, _⟩ => absurd hsource (by decide)
    | branch =>
      refine ⟨.branch 0 0, .branch 1 0, rfl, rfl, ?_, exec_eq_of_wordOf_eq rfl (by decide)⟩
      exact fun hdistance : distance 0 0 = distance 1 0 => absurd hdistance (by decide)

/-- Settles O39: the distance in either reading is `D` modulo `2^64`, and wrapping `D` into 32 bits leaves it alone. -/
theorem signedDisplacementIsTheDistance : Obligations.SignedDisplacementIsTheDistance := by
  intro D target instruction hlo hhi hD
  have hdifference : target - instruction = BitVec.ofInt 64 D := hD.elim sub_eq_ofInt_of_toNat_sub_eq id
  calc (displacement target instruction).toInt
      = (D.bmod (2 ^ 64)).bmod (2 ^ 32) := by
        rw [toInt_displacement, distance, hdifference, BitVec.toInt_ofInt]
    _ = D.bmod (2 ^ 32) := Int.bmod_bmod_of_dvd (Nat.pow_dvd_pow 2 (by decide))
    _ = D := Int.bmod_eq_of_le_mul_two (by omega) (by omega)

/-- Settles O40: truncation commutes with the subtraction, and the words are made of the displacement alone. -/
theorem addressBitsAbove31HaveNoEffect : Obligations.AddressBitsAbove31HaveNoEffect := by
  refine ⟨fun n register target instruction hn => ?everyWidth, fun register target instruction s => ?machineWidth⟩
  case everyWidth =>
    exact ⟨displacement_eq_sub hn target instruction, (packAddressLoad_setWidth hn register target instruction).symm,
      (packBranch_setWidth hn target instruction).symm⟩
  case machineWidth =>
    have hwidth : 32 ≤ 64 := by decide
    rw [packAddressLoad_setWidth hwidth, packBranch_setWidth hwidth]
    exact ⟨exec_addressLoad register target instruction s, exec_branch target instruction s⟩

/-- Settles O36: the words depend on the addresses through their difference alone. -/
theorem answersAreTranslationInvariant : Obligations.AnswersAreTranslationInvariant := by
  intro register target instruction c s
  refine ⟨packAddressLoad register target instruction, packBranch target instruction,
    exec_addressLoad register target instruction s, ?addressLoad, exec_branch target instruction s, ?branch⟩
  case addressLoad => rw [exec_addressLoad, packAddressLoad_add_right]
  case branch => rw [exec_branch, packBranch_add_right]

/-- Settles O37: zero fields leave the template as it is, and equal addresses have displacement 0. -/
theorem zeroOperandsAnswerTheTemplates : Obligations.ZeroOperandsAnswerTheTemplates := by
  intro register a s
  refine ⟨?moveImmediate, ?addressLoad, ?byteStore, ?branch, ?registerOnly⟩
  case moveImmediate =>
    have hword : packMoveImmediate 0 0 = 0x52800000#32 := by decide
    rw [exec_moveImmediate, hword]
  case addressLoad =>
    have hword : addressLoadTemplate ||| ((0 : Word).extractLsb' 0 5).setWidth 32 = 0x10000000#32 := by decide
    rw [exec_addressLoad, packAddressLoad_self, hword]
  case byteStore =>
    have hword : packByteStore 0 0 = 0x39000000#32 := by decide
    rw [exec_byteStore, hword]
  case branch => rw [exec_branch, packBranch_self, branchTemplate]
  case registerOnly => rw [exec_addressLoad, packAddressLoad_self, addressLoadTemplate]

end Sys2Proof.Machine

/-! PROOFS of the family 70_reset_and_hazards.md: the range of a signed reading as the agreement of the vector's sign bits
(R205), the call that a moved word names (R206), and runs that never stop (R209). -/

namespace Sys2Proof.Machine

/-! A signed range read off the sign bits (R205). -/

/-- The bits from `n` up agree exactly when the vector is its own low slice, extended from the sign bit `n`. -/
theorem signExtend_extractLsb'_eq_self_iff {v n : Nat} (d : BitVec v) (hn : n < v) :
    (d.extractLsb' 0 (n + 1)).signExtend v = d ↔ ∀ k, n ≤ k → k < v → d.getLsbD k = d.getLsbD n := by
  have hlow : ∀ k < n + 1, ((d.extractLsb' 0 (n + 1)).signExtend v).getLsbD k = d.getLsbD k := by
    intro k hk
    rw [BitVec.getLsbD_signExtend, if_pos hk, BitVec.getLsbD_extractLsb', Nat.zero_add, decide_eq_true hk,
      decide_eq_true (show k < v by omega), Bool.true_and, Bool.true_and]
  have hhigh : ∀ k < v, n < k → ((d.extractLsb' 0 (n + 1)).signExtend v).getLsbD k = d.getLsbD n := by
    intro k hk hnk
    rw [BitVec.getLsbD_signExtend, if_neg (show ¬ k < n + 1 by omega), BitVec.msb_eq_getLsbD_last,
      BitVec.getLsbD_extractLsb', Nat.zero_add, Nat.add_sub_cancel, decide_eq_true hk,
      decide_eq_true n.lt_succ_self, Bool.true_and, Bool.true_and]
  rw [BitVec.eq_of_getLsbD_eq_iff]
  constructor
  · intro h k hnk hk
    obtain rfl | hlt := hnk.eq_or_lt
    · rfl
    · rw [← h k hk, hhigh k hk hlt]
  · intro h k hk
    obtain hlt | hle := Nat.lt_or_ge n k
    · rw [hhigh k hk hlt, h k hlt.le hk]
    · exact hlow k (Nat.lt_succ_of_le hle)

/-- The bits from `n` up agree exactly when the signed reading fits in `n + 1` bits. -/
theorem signBitsAgree_iff_toInt_fits {v n : Nat} (d : BitVec v) (hn : n < v) :
    (∀ k, n ≤ k → k < v → d.getLsbD k = d.getLsbD n) ↔ -2 ^ n ≤ d.toInt ∧ d.toInt < 2 ^ n := by
  rw [← signExtend_extractLsb'_eq_self_iff d hn]
  constructor
  · intro h
    rw [← h, BitVec.toInt_signExtend_of_le hn]
    exact ⟨BitVec.le_toInt _, BitVec.toInt_lt⟩
  · rintro ⟨hlo, hhi⟩
    have hpow : (2 : Int) ^ (n + 1) = 2 ^ n * 2 := pow_succ 2 n
    exact signExtend_extractLsb'_of_toInt hn (by omega) (by omega)

/-- A signed reading is a multiple of a power of two exactly when the bits below that power are zero. -/
theorem extractLsb'_zero_eq_zero_iff_dvd_toInt {v n : Nat} (d : BitVec v) (hn : n ≤ v) :
    d.extractLsb' 0 n = 0#n ↔ ((2 ^ n : Nat) : Int) ∣ d.toInt := by
  rw [Int.dvd_iff_emod_eq_zero, ← toNat_extractLsb'_zero_eq_toInt_emod d hn, Int.natCast_eq_zero,
    BitVec.toNat_eq, BitVec.toNat_zero]

/-! The contract read off the displacement (R205). -/

/-- A distance is in a range within 32 bits exactly when the displacement is and has not wrapped. -/
theorem distance_fits_iff_displacement {n : Nat} (hn : n < 32) (target instruction : Addr) :
    -2 ^ n ≤ distance target instruction ∧ distance target instruction < 2 ^ n ↔
      (∀ k, n ≤ k → k < 32 →
        (displacement target instruction).getLsbD k = (displacement target instruction).getLsbD n) ∧
      (target - instruction).toInt = (displacement target instruction).toInt := by
  rw [signBitsAgree_iff_toInt_fits _ hn, ← distance]
  constructor
  · rintro ⟨hlo, hhi⟩
    have hpow : (2 : Int) ^ n ≤ 2 ^ 31 := pow_le_pow_right₀ (by norm_num) (Nat.le_of_lt_succ hn)
    have hunwrapped : (displacement target instruction).toInt = distance target instruction := by
      rw [toInt_displacement]
      exact Int.bmod_eq_of_le_mul_two (by omega) (by omega)
    rw [hunwrapped]
    exact ⟨⟨hlo, hhi⟩, rfl⟩
  · rintro ⟨hfits, hunwrapped⟩
    rwa [hunwrapped]

/-- Whether a distance is aligned is read off the low two bits of the displacement. -/
theorem branchDistanceAligned_iff_displacement (target instruction : Addr) :
    branchDistanceAligned target instruction = true ↔ (displacement target instruction).extractLsb' 0 2 = 0 := by
  rw [branchDistanceAligned_iff, extractLsb'_displacement target instruction (by decide)]
  exact (extractLsb'_zero_eq_zero_iff_dvd_toInt (target - instruction) (n := 2) (by decide)).symm

/-! A word read at an address moved by `c` (R206). -/

/-- The call with its target and its instruction address moved by `c`, where it names addresses. -/
def movedBy (c : Addr) : Instr → Instr
  | .moveImmediate register immediate => .moveImmediate register immediate
  | .addressLoad register target instruction => .addressLoad register (target + c) (instruction + c)
  | .byteStore source base => .byteStore source base
  | .branch target instruction => .branch (target + c) (instruction + c)

theorem movedBy_of_no_instructionAddress {i : Instr} (h : i.instructionAddress? = none) (c : Addr) :
    movedBy c i = i := by
  cases i with
  | moveImmediate register immediate => rfl
  | addressLoad register target instruction => cases h
  | byteStore source base => rfl
  | branch target instruction => cases h

theorem callAt_add (a c : Addr) (w : Word) (f : Form) : callAt (a + c) w f = movedBy c (callAt a w f) := by
  cases f with
  | moveImmediate => rfl
  | addressLoad => rw [callAt, callAt, movedBy, add_right_comm]
  | byteStore => rfl
  | branch => rw [callAt, callAt, movedBy, add_right_comm]

theorem decodeAt_add {a : Addr} {w : Word} {i : Instr} (h : decodeAt a w = .ok i) (c : Addr) :
    decodeAt (a + c) w = .ok (movedBy c i) := by
  obtain ⟨f, hadmits, rfl⟩ := decodeAt_eq_ok_iff.mp h
  rw [decodeAt_of_admits hadmits, callAt_add]

/-! The statements. -/

/-- Settles O41: a distance within 32 bits is the displacement's signed reading, whose range is the agreement of its sign
bits. -/
theorem contractIsTheTableOfRanges : Obligations.ContractIsTheTableOfRanges := by
  intro a b target instruction
  refine ⟨wellFormed_moveImmediate_iff, wellFormed_addressLoad_iff, wellFormed_byteStore_iff, wellFormed_branch_iff,
    ?addressLoadBits, ?branchBits⟩
  case addressLoadBits =>
    rw [addressLoadDistanceFits_iff]
    exact distance_fits_iff_displacement (n := 20) (by decide) target instruction
  case branchBits =>
    rw [Bool.and_eq_true, branchDistanceAligned_iff_displacement, branchDistanceFits_iff]
    exact and_congr_right' (distance_fits_iff_displacement (n := 27) (by decide) target instruction)

/-- Settles O42: whatever a word decodes to, it decodes to the moved call at the moved address. -/
theorem movedWordRefersToMovedTarget : Obligations.MovedWordRefersToMovedTarget := by
  intro w a c
  refine ⟨fun register target h => ?addressLoad, fun target h => ?branch, fun i h hnone => ?noAddress⟩
  case addressLoad => exact decodeAt_add h c
  case branch => exact decodeAt_add h c
  case noAddress => rw [decodeAt_add h c, movedBy_of_no_instructionAddress hnone]

/-- Settles O53, by induction on the number of steps: a step from defined calls goes on, into defined calls. -/
theorem definedCallsRunForever : Obligations.DefinedCallsRunForever := by
  intro s hs k
  induction k generalizing s with
  | zero => exact ⟨s, rfl⟩
  | succ k ih =>
    obtain ⟨t, hstep⟩ := exists_step_of_callsDefined hs
    rw [run_succ_of_step hstep]
    exact ih t ((callsDefined_iff_of_step hstep).mp hs)

end Sys2Proof.Machine
